-- ==== Sys2Proof/Word.lean ====
section
/-! DEFINITION. The one datum of the hardware: an 8-bit unsigned byte (00_scope.md R6). -/

namespace Sys2Proof

/-- A byte: every register, memory cell, immediate, register operand and address is one (R6, 20_memory.md R34). -/
abbrev Byte := BitVec 8

end Sys2Proof
end

