-- ==== Sys2Proof/Config.lean ====
section
/-! DEFINITION. The sizes and constants the spec fixes (00_scope.md R5). No value of this hardware is left open
(93_implementation_defined.md: nothing is treated as "any value"), so nothing here is a free value. -/

namespace Sys2Proof

/-- `NREG`: eight registers, indexed 0 to 7. -/
abbrev Config.numRegs : Nat := 8

/-- `MEMSIZE`: 256 bytes, addresses 0 to 255. -/
abbrev Config.memSize : Nat := 256

/-- `PCMAX`: the largest program counter value. -/
abbrev Config.pcMax : Nat := 255

/-- `SP_RESET`: R7 at reset. -/
abbrev Config.spReset : Byte := 0xF4

/-- R6 at reset (92_eei_decisions.md D2). UNVERIFIED, log 7: unsafe. -/
abbrev Config.flReset : Byte := 0x00

/-- The program counter at reset (92_eei_decisions.md D1). UNVERIFIED, log 7: unsafe. -/
abbrev Config.pcReset : Byte := 0x00

/-- Every memory byte at reset (10_state.md R19). -/
abbrev Config.memReset : Byte := 0x00

end Sys2Proof
end

