-- ==== Sys2Proof/Syntax.lean ====
section
/-! DEFINITION. The eleven instructions (30_encoding.md R53), the eight register names (10_state.md R11) and the four
error kinds (60_exceptions.md R100). -/

namespace Sys2Proof

/-- The eight general registers (10_state.md R11). -/
inductive Reg where
  | r0 | r1 | r2 | r3 | r4 | r5 | r6 | r7
deriving DecidableEq, Repr

/-- SP, by convention R7 (10_state.md R11: an ordinary register, not special-cased storage). -/
abbrev Reg.sp : Reg := .r7

/-- FL, by convention R6 (10_state.md R11, R17). -/
abbrev Reg.fl : Reg := .r6

/-- The four fatal errors (60_exceptions.md R100); their names are normative (R109). -/
inductive ErrorKind where
  /-- Memory or program counter access outside 0 to 255 (R101). -/
  | outOfBounds
  /-- Register operand byte outside 0 to 7 (R102). -/
  | invalidRegister
  /-- Instruction byte with bit 5 clear that is no fixed-dispatch opcode (R103). -/
  | unknownInstruction
  /-- Instruction byte with bit 5 set that is none of ADD, MUL, CMP (R104). -/
  | unsupportedAluOperation
deriving DecidableEq, Repr

/-- One constructor per row of the opcode table. A register operand is the WHOLE operand byte, not masked to three bits:
bytes 8 to 255 decode, and the handler raises `InvalidRegister` for them (30_encoding.md R52, R55, R57). -/
inductive Instr where
  /-- LDI reg, imm8 (R80). -/
  | ldi (reg imm : Byte)
  /-- PRN reg (R81). -/
  | prn (reg : Byte)
  /-- HLT (R90). -/
  | hlt
  /-- PUSH reg (R85). -/
  | push (reg : Byte)
  /-- POP reg (R86). -/
  | pop (reg : Byte)
  /-- JMP reg (R91). -/
  | jmp (reg : Byte)
  /-- JEQ reg (R92). -/
  | jeq (reg : Byte)
  /-- JNE reg (R93). -/
  | jne (reg : Byte)
  /-- ADD regA, regB (R95). -/
  | add (regA regB : Byte)
  /-- MUL regA, regB (R96). -/
  | mul (regA regB : Byte)
  /-- CMP regA, regB (R97). -/
  | cmp (regA regB : Byte)
deriving DecidableEq, Repr

end Sys2Proof
end

