-- ==== Sys2Proof/WellFormed.lean ====
section
/-! DEFINITION. Which instructions are well formed: every register operand names one of the eight registers
(30_encoding.md R52). An ill-formed instruction still decodes and runs: it raises `InvalidRegister` (R57). -/

namespace Sys2Proof

/-- An operand byte that names a register: 0 to 7. -/
def isRegByte (b : Byte) : Bool := decide (b.toNat < Config.numRegs)

/-- The check on an instruction's register operands (30_encoding.md R52); `imm8` cannot fail. -/
def Instr.wellFormed : Instr → Bool
  | .ldi reg _ => isRegByte reg
  | .prn reg => isRegByte reg
  | .hlt => true
  | .push reg => isRegByte reg
  | .pop reg => isRegByte reg
  | .jmp reg => isRegByte reg
  | .jeq reg => isRegByte reg
  | .jne reg => isRegByte reg
  | .add regA regB => isRegByte regA && isRegByte regB
  | .mul regA regB => isRegByte regA && isRegByte regB
  | .cmp regA regB => isRegByte regA && isRegByte regB

end Sys2Proof
end

