-- ==== Sys2Proof/Decode.lean ====
section
/-! DEFINITION. The part `instruction_decoder` (30_encoding.md R50 to R57), the encoder, and the layout of an opcode
table word as bytes. -/

namespace Sys2Proof

/-! ## The opcodes (R53) -/

/-- LDI, 10000010. -/
abbrev Opcode.ldi : Byte := 0x82
/-- PRN, 01000111. -/
abbrev Opcode.prn : Byte := 0x47
/-- HLT, 00000001. -/
abbrev Opcode.hlt : Byte := 0x01
/-- PUSH, 01000101. -/
abbrev Opcode.push : Byte := 0x45
/-- POP, 01000110. -/
abbrev Opcode.pop : Byte := 0x46
/-- JMP, 01010100. -/
abbrev Opcode.jmp : Byte := 0x54
/-- JEQ, 01010101. -/
abbrev Opcode.jeq : Byte := 0x55
/-- JNE, 01010110. -/
abbrev Opcode.jne : Byte := 0x56
/-- ADD, 10100000. -/
abbrev Opcode.add : Byte := 0xA0
/-- MUL, 10100010. -/
abbrev Opcode.mul : Byte := 0xA2
/-- CMP, 10100111. -/
abbrev Opcode.cmp : Byte := 0xA7

/-! ## Classification (R54, R55) -/

/-- The decoder's thirteen results (R55). -/
inductive InstrClass where
  | ldi | prn | hlt | push | pop | jmp | jeq | jne | add | mul | cmp
  | unknownInstruction | unsupportedAluOperation
deriving DecidableEq, Repr

/-- `is_alu`: bit 5 of the instruction byte, mask 0b00100000 (R54, R55). -/
def isAlu (ir : Byte) : Bool := ir.getLsbD 5

/-- The classification of R54: a fixed-dispatch opcode, else the ALU bit and then the whole byte. -/
def classify (ir : Byte) : InstrClass :=
  if ir = Opcode.ldi then .ldi
  else if ir = Opcode.prn then .prn
  else if ir = Opcode.hlt then .hlt
  else if ir = Opcode.push then .push
  else if ir = Opcode.pop then .pop
  else if ir = Opcode.jmp then .jmp
  else if ir = Opcode.jeq then .jeq
  else if ir = Opcode.jne then .jne
  else if isAlu ir then
    if ir = Opcode.add then .add
    else if ir = Opcode.mul then .mul
    else if ir = Opcode.cmp then .cmp
    else .unsupportedAluOperation
  else .unknownInstruction

/-- `length` (R51, R55): 1, 2 or 3, and none for the two illegal classes. -/
def InstrClass.length : InstrClass → Option Nat
  | .hlt => some 1
  | .prn | .push | .pop | .jmp | .jeq | .jne => some 2
  | .ldi | .add | .mul | .cmp => some 3
  | .unknownInstruction | .unsupportedAluOperation => none

/-- The instruction the three prefetched bytes stand for, or the decode error (R52, R54). The operand bytes are carried,
never examined (R55); bytes the format does not use are dropped (R50). -/
def decode (ir opa opb : Byte) : Except ErrorKind Instr :=
  match classify ir with
  | .ldi => .ok (.ldi opa opb)
  | .prn => .ok (.prn opa)
  | .hlt => .ok .hlt
  | .push => .ok (.push opa)
  | .pop => .ok (.pop opa)
  | .jmp => .ok (.jmp opa)
  | .jeq => .ok (.jeq opa)
  | .jne => .ok (.jne opa)
  | .add => .ok (.add opa opb)
  | .mul => .ok (.mul opa opb)
  | .cmp => .ok (.cmp opa opb)
  | .unknownInstruction => .error .unknownInstruction
  | .unsupportedAluOperation => .error .unsupportedAluOperation

/-- The decoder on the bytes that lie from an address to the top of memory: fewer than three are `OutOfBounds`, before
classification (40_step_loop.md R72). -/
def decodeBytes : List Byte → Except ErrorKind Instr
  | ir :: opa :: opb :: _ => decode ir opa opb
  | _ => .error .outOfBounds

/-! ## Encoding (R50) -/

/-- The instruction byte of an instruction. -/
def Instr.opcode : Instr → Byte
  | .ldi _ _ => Opcode.ldi
  | .prn _ => Opcode.prn
  | .hlt => Opcode.hlt
  | .push _ => Opcode.push
  | .pop _ => Opcode.pop
  | .jmp _ => Opcode.jmp
  | .jeq _ => Opcode.jeq
  | .jne _ => Opcode.jne
  | .add _ _ => Opcode.add
  | .mul _ _ => Opcode.mul
  | .cmp _ _ => Opcode.cmp

/-- The operand bytes of an instruction, in address order. -/
def Instr.operands : Instr → List Byte
  | .ldi reg imm => [reg, imm]
  | .prn reg => [reg]
  | .hlt => []
  | .push reg => [reg]
  | .pop reg => [reg]
  | .jmp reg => [reg]
  | .jeq reg => [reg]
  | .jne reg => [reg]
  | .add regA regB => [regA, regB]
  | .mul regA regB => [regA, regB]
  | .cmp regA regB => [regA, regB]

/-- The bytes of an instruction, opcode at the lowest address (R50, 20_memory.md R34). -/
def encode (i : Instr) : List Byte := i.opcode :: i.operands

/-- Instruction length in bytes (R51). -/
def Instr.length (i : Instr) : Nat := 1 + i.operands.length

/-- The operand byte that names a register (R52). -/
def Reg.code : Reg → Byte
  | .r0 => 0
  | .r1 => 1
  | .r2 => 2
  | .r3 => 3
  | .r4 => 4
  | .r5 => 5
  | .r6 => 6
  | .r7 => 7

/-- The register an operand byte names, all eight bits counted (R52): none for 8 to 255. -/
def Reg.ofByte (b : Byte) : Option Reg :=
  if b = 0 then some .r0
  else if b = 1 then some .r1
  else if b = 2 then some .r2
  else if b = 3 then some .r3
  else if b = 4 then some .r4
  else if b = 5 then some .r5
  else if b = 6 then some .r6
  else if b = 7 then some .r7
  else none

/-! ## Opcode table words -/

/-- Byte `k` of a table word: its bits `8 * k + 7` down to `8 * k`. -/
def byteOfWord (w k : Nat) : Byte := BitVec.ofNat 8 (w / 256 ^ k)

/-- A table word laid out as the hardware stores it: the first byte at the lowest address, every bit above `nbits` zero,
as many bytes as the longest instruction has (R50). -/
def tableBytes (nbits w : Nat) : List Byte :=
  [byteOfWord (w % 2 ^ nbits) 0, byteOfWord (w % 2 ^ nbits) 1, byteOfWord (w % 2 ^ nbits) 2]

/-- What the decoder reads from an opcode table word. -/
def decodeTableWord (nbits w : Nat) : Option Instr :=
  match decodeBytes (tableBytes nbits w) with
  | .ok i => some i
  | .error _ => none

/-! ## Listing text (R60) -/

/-- A register operand as R60 spells it: `R` and its decimal index. -/
def regText (b : Byte) : String := "R" ++ toString b.toNat

/-- An instruction in the spelling of R60. -/
def Instr.text : Instr → String
  | .ldi reg imm => "LDI " ++ regText reg ++ "," ++ toString imm.toNat
  | .prn reg => "PRN " ++ regText reg
  | .hlt => "HLT"
  | .push reg => "PUSH " ++ regText reg
  | .pop reg => "POP " ++ regText reg
  | .jmp reg => "JMP " ++ regText reg
  | .jeq reg => "JEQ " ++ regText reg
  | .jne reg => "JNE " ++ regText reg
  | .add regA regB => "ADD " ++ regText regA ++ "," ++ regText regB
  | .mul regA regB => "MUL " ++ regText regA ++ "," ++ regText regB
  | .cmp regA regB => "CMP " ++ regText regA ++ "," ++ regText regB

end Sys2Proof
end

