-- ==== Sys2Proof/Machine/State.lean ====
section
/-! DEFINITION. The architectural state (10_state.md R10: "exactly the following, and nothing else"), its reset value
(70_reset_and_hazards.md R120), and the reasons for which `step` answers no next state. -/

namespace Sys2Proof.Machine

/-- `register_file_8x8`: eight 8-bit registers (10_state.md R11). -/
structure RegFile where
  r0 : Byte
  r1 : Byte
  r2 : Byte
  r3 : Byte
  r4 : Byte
  r5 : Byte
  r6 : Byte
  r7 : Byte
deriving DecidableEq, Repr

/-- `memory_array_256x8` (10_state.md R19): (address, byte) cells in canonical form, addresses strictly rising, no cell
equal to what an unlisted address reads as (`Memory.wf`). -/
abbrev Memory := List Host.Cell

/-- The record of a fatal error: kind, failing program counter, instruction byte (10_state.md R20, 60_exceptions.md R105). -/
structure FaultRecord where
  kind : ErrorKind
  pc : Byte
  ir : Byte
deriving DecidableEq, Repr

/-- The architectural state (10_state.md R10). -/
structure State where
  /-- R0 to R7 (R11); R6 is the flags register, R7 the stack pointer. -/
  regs : RegFile
  /-- The program counter (R15). -/
  pc : Byte
  /-- The 256 bytes of memory (R19). -/
  mem : Memory
  /-- Set by HLT and by the host's forced halt (R20). -/
  halted : Bool
  /-- The fatal error that ended the run, if one did (R20). -/
  fault : Option FaultRecord
  /-- The output sequence, oldest value first (R21). -/
  out : List Byte
deriving DecidableEq, Repr

/-- The run states (10_state.md R20). -/
inductive RunState where
  | running | halted | faulted
deriving DecidableEq, Repr

/-- Why `step` answers no next state: "none; terminal" (10_state.md R20, 92_eei_decisions.md D22). The four fatal errors of
the hardware are NOT here: raising one is a next state whose `fault` field holds the record (60_exceptions.md R105). -/
inductive Fault where
  /-- No step is enabled in Halted. Raised by `step` alone. Safe: the hardware takes no step either. -/
  | halted
  /-- No step is enabled in Faulted. Raised by `step` alone. Safe: the hardware takes no step either. -/
  | faulted
deriving DecidableEq, Repr

/-- What the model gives no meaning. -/
inductive Refusal where
  /-- An instruction with no meaning in `exec`. No arm raises it: all eleven instructions have their meaning. Safe. -/
  | notModelled (mnemonic : String)
deriving DecidableEq, Repr

/-- The registers after reset (10_state.md R14). -/
def RegFile.reset : RegFile :=
  { r0 := 0x00, r1 := 0x00, r2 := 0x00, r3 := 0x00, r4 := 0x00, r5 := 0x00, r6 := Config.flReset, r7 := Config.spReset }

/-- The machine right after reset (10_state.md R10, 70_reset_and_hazards.md R120). -/
def State.reset : State :=
  { regs := RegFile.reset, pc := Config.pcReset, mem := [], halted := false, fault := none, out := [] }

end Sys2Proof.Machine
end

