-- ==== Sys2Proof/Machine/Ops.lean ====
section
/-! DEFINITION. The named operations over registers, memory, output and run state, raising a fatal error, and how an
instruction's checks and writes end (00_scope.md R7). -/

namespace Sys2Proof.Machine

/-- What `exec` and `step` answer. -/
abbrev Answer := Host.Outcome State Fault Refusal

/-! ## Registers (10_state.md R12) -/

/-- The value of a register. -/
def RegFile.read (f : RegFile) : Reg → Byte
  | .r0 => f.r0
  | .r1 => f.r1
  | .r2 => f.r2
  | .r3 => f.r3
  | .r4 => f.r4
  | .r5 => f.r5
  | .r6 => f.r6
  | .r7 => f.r7

/-- Replace the value of one register. -/
def RegFile.write (f : RegFile) (r : Reg) (v : Byte) : RegFile :=
  match r with
  | .r0 => { f with r0 := v }
  | .r1 => { f with r1 := v }
  | .r2 => { f with r2 := v }
  | .r3 => { f with r3 := v }
  | .r4 => { f with r4 := v }
  | .r5 => { f with r5 := v }
  | .r6 => { f with r6 := v }
  | .r7 => { f with r7 := v }

/-- `x[r]`. -/
def State.reg (s : State) (r : Reg) : Byte := s.regs.read r

/-- `x[r] <- v`. -/
def State.setReg (s : State) (r : Reg) (v : Byte) : State := { s with regs := s.regs.write r v }

/-! ## Memory (10_state.md R19, 20_memory.md R30 to R32) -/

/-- What an address with no cell reads as: the reset content (R19). -/
def Memory.unlisted : Byte := Config.memReset

/-- The byte a memory holds at an address. -/
def Memory.read : Memory → Nat → Byte
  | [], _ => Memory.unlisted
  | (a, v) :: m, b => if a = b then v else Memory.read m b

/-- A memory without the cells of one address. -/
def Memory.erase : Memory → Nat → Memory
  | [], _ => []
  | (a, w) :: m, b => if a = b then Memory.erase m b else (a, w) :: Memory.erase m b

/-- A memory with one cell put before the first cell of a higher address. -/
def Memory.insert : Memory → Nat → Byte → Memory
  | [], b, v => [(b, v)]
  | (a, w) :: m, b, v => if b < a then (b, v) :: (a, w) :: m else (a, w) :: Memory.insert m b v

/-- A memory with one byte replaced, in canonical form: the value an unlisted address reads as leaves no cell. -/
def Memory.write (m : Memory) (b : Nat) (v : Byte) : Memory :=
  if v = Memory.unlisted then Memory.erase m b else Memory.insert (Memory.erase m b) b v

/-- The canonical form from an address upward: addresses strictly rising and below 256, no cell equal to `unlisted`. -/
def Memory.wfFrom : Nat → Memory → Bool
  | _, [] => true
  | lo, (a, v) :: m => decide (lo ≤ a) && decide (a < Config.memSize) && decide (v ≠ Memory.unlisted) && Memory.wfFrom (a + 1) m

/-- The canonical form of a memory. -/
def Memory.wf (m : Memory) : Bool := Memory.wfFrom 0 m

/-- `MemRead(a, 1)` (20_memory.md R31): `OutOfBounds` at 256 and above. -/
def State.memRead (s : State) (a : Nat) : Except ErrorKind Byte :=
  if a < Config.memSize then .ok (Memory.read s.mem a) else .error .outOfBounds

/-- `MemWrite(a, 1, v)` (20_memory.md R32): `OutOfBounds` at 256 and above, else `v mod 256` is stored. -/
def State.memWrite (s : State) (a v : Nat) : Except ErrorKind State :=
  if a < Config.memSize then .ok { s with mem := Memory.write s.mem a (BitVec.ofNat 8 v) } else .error .outOfBounds

/-- The host's placing of bytes from an address upward (70_reset_and_hazards.md R122); nothing lies beyond address 255. -/
def State.placeBytes (s : State) (a : Nat) : List Byte → State
  | [] => s
  | b :: bs =>
    if a < Config.memSize then State.placeBytes { s with mem := Memory.write s.mem a b } (a + 1) bs else s

/-! ## Program counter, output, run state -/

/-- `pc <- t` (10_state.md R15). -/
def State.setPc (s : State) (t : Byte) : State := { s with pc := t }

/-- `out <- out ++ [v]` (10_state.md R21). -/
def State.emit (s : State) (v : Byte) : State := { s with out := s.out ++ [v] }

/-- `halted <- true` (10_state.md R20). -/
def State.halt (s : State) : State := { s with halted := true }

/-- The run state (10_state.md R20). A state with both fields set is reached by no run; it counts as Faulted, which is never
a clean end. DESIGN CHOICE, log 3: safe. -/
def State.runState (s : State) : RunState :=
  if s.fault.isSome then .faulted else if s.halted then .halted else .running

/-- The numeric codes of 60_exceptions.md R109. -/
def ErrorKind.code : ErrorKind → Nat
  | .outOfBounds => 1
  | .invalidRegister => 2
  | .unknownInstruction => 3
  | .unsupportedAluOperation => 4

/-- The fault code a status port would show: 0 is no fault (R109). -/
def State.faultCode (s : State) : Nat :=
  match s.fault with
  | none => 0
  | some f => ErrorKind.code f.kind

/-! ## Taking a fatal error, and the end of an instruction -/

/-- `raise K(pc, ir)` (60_exceptions.md R105, R106): `fault` receives the record and nothing else changes. There is no handler
and no return (R105, R108). UNVERIFIED, logs 1 and 13: safe for claims of success, since Faulted is never a clean end. -/
def State.raise (s : State) (k : ErrorKind) (ir : Byte) : State := { s with fault := some ⟨k, s.pc, ir⟩ }

/-- The end of an instruction whose checks and writes were computed from `s`: all of the writes, or the error raised in `s`
itself with none of them (60_exceptions.md R106). Both are next states. -/
def complete (s : State) (ir : Byte) : Except ErrorKind State → Answer
  | .ok t => .next t
  | .error k => .next (s.raise k ir)

end Sys2Proof.Machine
end

