-- ==== Sys2Proof/Machine/Operands.lean ====
section
/-! DEFINITION. The operand forms (30_encoding.md R52) and the program counter's advance (00_scope.md R7). -/

namespace Sys2Proof.Machine

/-- `RegCheck(b)` (00_scope.md R7): the register a whole operand byte names, `InvalidRegister` for 8 to 255. -/
def regCheck (b : Byte) : Except ErrorKind Reg :=
  match Reg.ofByte b with
  | some r => .ok r
  | none => .error .invalidRegister

/-- The target of `AdvancePc(n)` (00_scope.md R7, 10_state.md R16): `OutOfBounds` when `pc + n` passes 255; it never wraps.
UNVERIFIED, log 8: safe against a wrapping implementation. -/
def nextPc (s : State) (n : Nat) : Except ErrorKind Byte :=
  if s.pc.toNat + n > Config.pcMax then .error .outOfBounds else .ok (BitVec.ofNat 8 (s.pc.toNat + n))

end Sys2Proof.Machine
end

