-- ==== Sys2Proof/Machine/Flags.lean ====
section
/-! DEFINITION. The part `condition_flags` (10_state.md R17, R18): the three patterns, what a compare stores, and the one test
that JEQ and JNE make. The flags have no storage but R6. -/

namespace Sys2Proof.Machine

/-- EQUAL, 0b001. -/
abbrev flEqual : Byte := 0x01
/-- GREATER, 0b010. -/
abbrev flGreater : Byte := 0x02
/-- LESS, 0b100. -/
abbrev flLess : Byte := 0x04

/-- The pattern CMP stores for two unsigned values (R17, 44_alu.md R97). -/
def compareFlags (a b : Byte) : Byte :=
  if a.toNat = b.toNat then flEqual else if a.toNat < b.toNat then flLess else flGreater

/-- `is_equal` (40_step_loop.md R77): the whole of R6 is 0x01 (R18). UNVERIFIED, log 10: unsafe where R6 holds a value with
bit 0 set other than 0x01. -/
def State.flagsEqual (s : State) : Bool := s.reg .fl == flEqual

end Sys2Proof.Machine
end

