-- ==== Sys2Proof/Machine/Alu.lean ====
section
/-! DEFINITION. The part `alu_8bit` (44_alu.md R99) and the instructions ADD, MUL and CMP (R95 to R97). -/

namespace Sys2Proof.Machine

/-- Which register receives the ALU's result (R99). -/
inductive AluDest where
  | regA | flags
deriving DecidableEq, Repr

/-- The ALU: a pure function of the selector, which is the instruction byte, and two values (R99). -/
def alu (sel a b : Byte) : Except ErrorKind (AluDest × Byte) :=
  if sel = Opcode.add then .ok (.regA, BitVec.ofNat 8 (a.toNat + b.toNat))
  else if sel = Opcode.mul then .ok (.regA, BitVec.ofNat 8 (a.toNat * b.toNat))
  else if sel = Opcode.cmp then .ok (.flags, compareFlags a b)
  else .error .unsupportedAluOperation

/-- The register that an ALU destination stands for, given regA. -/
def AluDest.toReg (regA : Reg) : AluDest → Reg
  | .regA => regA
  | .flags => .fl

/-- What the three ALU instructions share: both register checks, the advance check, both reads before the one write. -/
def aluStep (sel regA regB : Byte) (s : State) : Except ErrorKind State := do
  let ra ← regCheck regA
  let rb ← regCheck regB
  let npc ← nextPc s 3
  let res ← alu sel (s.reg ra) (s.reg rb)
  pure ((s.setReg (res.1.toReg ra) res.2).setPc npc)

/-- ADD (R95). -/
def execAdd (regA regB : Byte) (s : State) : Answer := complete s Opcode.add (aluStep Opcode.add regA regB s)

/-- MUL (R96). -/
def execMul (regA regB : Byte) (s : State) : Answer := complete s Opcode.mul (aluStep Opcode.mul regA regB s)

/-- CMP (R97). The whole byte of R6 is written (UNVERIFIED, log 18: safe where the old bits are not read). -/
def execCmp (regA regB : Byte) (s : State) : Answer := complete s Opcode.cmp (aluStep Opcode.cmp regA regB s)

end Sys2Proof.Machine
end

