-- ==== Sys2Proof/Machine/ControlFlow.lean ====
section
/-! DEFINITION. HLT, JMP, JEQ and JNE (43_control_flow.md). The register of a conditional jump is checked whether or not the
jump is taken (R92, R93; UNVERIFIED, log 12: safe). -/

namespace Sys2Proof.Machine

/-- HLT (R90): the program counter stays. -/
def execHlt (s : State) : Answer := complete s Opcode.hlt (pure s.halt)

/-- JMP (R91): absolute, nothing is added. -/
def execJmp (reg : Byte) (s : State) : Answer :=
  complete s Opcode.jmp do
    let r ← regCheck reg
    pure (s.setPc (s.reg r))

/-- A jump through a register, or an advance by 2 (R92, R93, 40_step_loop.md R74). -/
def jumpIf (taken : Bool) (reg : Byte) (s : State) : Except ErrorKind State := do
  let r ← regCheck reg
  let npc ← if taken then pure (s.reg r) else nextPc s 2
  pure (s.setPc npc)

/-- JEQ (R92). -/
def execJeq (reg : Byte) (s : State) : Answer := complete s Opcode.jeq (jumpIf s.flagsEqual reg s)

/-- JNE (R93). -/
def execJne (reg : Byte) (s : State) : Answer := complete s Opcode.jne (jumpIf (!s.flagsEqual) reg s)

end Sys2Proof.Machine
end

