-- ==== Sys2Proof/Machine/DataMovement.lean ====
section
/-! DEFINITION. LDI and PRN (41_data_movement.md). -/

namespace Sys2Proof.Machine

/-- LDI (R80). -/
def execLdi (reg imm : Byte) (s : State) : Answer :=
  complete s Opcode.ldi do
    let r ← regCheck reg
    let npc ← nextPc s 3
    pure ((s.setReg r imm).setPc npc)

/-- PRN (R81). -/
def execPrn (reg : Byte) (s : State) : Answer :=
  complete s Opcode.prn do
    let r ← regCheck reg
    let npc ← nextPc s 2
    pure ((s.emit (s.reg r)).setPc npc)

end Sys2Proof.Machine
end

