-- ==== Sys2Proof/Machine/Stack.lean ====
section
/-! DEFINITION. PUSH and POP (42_stack.md). R7 wraps modulo 256 (20_memory.md R44; UNVERIFIED, log 9: unsafe), and each Effect
cell is read in order where the operand is R7 itself (UNVERIFIED, log 11: unsafe). -/

namespace Sys2Proof.Machine

/-- The register file step of PUSH: R7 minus 1, wrapping 0 to 255 (42_stack.md R85). -/
def State.decSp (s : State) : State := s.setReg .sp (s.reg .sp + 255)

/-- The register file step of POP: R7 plus 1, wrapping 255 to 0 (42_stack.md R86). -/
def State.incSp (s : State) : State := s.setReg .sp (s.reg .sp + 1)

/-- PUSH (R85): the address and the stored value are both read after the decrement. -/
def execPush (reg : Byte) (s : State) : Answer :=
  complete s Opcode.push do
    let r ← regCheck reg
    let npc ← nextPc s 2
    let t ← s.decSp.memWrite (s.decSp.reg .sp).toNat (s.decSp.reg r).toNat
    pure (t.setPc npc)

/-- POP (R86): the load comes first, then R7 as it then is, is incremented. -/
def execPop (reg : Byte) (s : State) : Answer :=
  complete s Opcode.pop do
    let r ← regCheck reg
    let npc ← nextPc s 2
    let v ← s.memRead (s.reg .sp).toNat
    pure ((s.setReg r v).incSp.setPc npc)

end Sys2Proof.Machine
end

