-- ==== Sys2Proof/Machine/Fetch.lean ====
section
/-! DEFINITION. Everything of the step that comes before `execute` (40_step_loop.md R70 to R73): the run state, the fetch, the
operand prefetch with its bound, the classification. -/

namespace Sys2Proof.Machine

/-- The instruction byte at the program counter (R71). -/
def State.ir (s : State) : Byte := Memory.read s.mem s.pc.toNat

/-- The fetch and the operand prefetch (R71, R72): three reads at pc, pc + 1 and pc + 2, `OutOfBounds` past 255, no wrap.
UNVERIFIED, log 14: safe. -/
def fetch (s : State) : Except ErrorKind (Byte × Byte × Byte) := do
  let ir ← s.memRead s.pc.toNat
  let opa ← s.memRead (s.pc.toNat + 1)
  let opb ← s.memRead (s.pc.toNat + 2)
  pure (ir, opa, opb)

/-- Fetch, prefetch, then classify (R70 steps 1 to 3). -/
def fetchDecode (s : State) : Except ErrorKind Instr := do
  let w ← fetch s
  decode w.1 w.2.1 w.2.2

/-- What a step does before `execute`. -/
inductive Front where
  /-- No step is enabled. -/
  | stopped (f : Fault)
  /-- The step ended in a fatal error before `execute`. -/
  | raised (t : State)
  /-- An instruction to execute. -/
  | run (i : Instr)
deriving DecidableEq, Repr

/-- The step up to `execute` (R70). -/
def front (s : State) : Front :=
  match s.runState with
  | .halted => .stopped .halted
  | .faulted => .stopped .faulted
  | .running =>
    match fetchDecode s with
    | .ok i => .run i
    | .error k => .raised (s.raise k s.ir)

end Sys2Proof.Machine
end

