-- ==== Sys2Proof/Machine/Step.lean ====
section
/-! DEFINITION. The one transition of the machine (40_step_loop.md R70), and the placing of one instruction where it fetches. -/

namespace Sys2Proof.Machine

/-- One step (R70). -/
def step (s : State) : Host.Outcome State Fault Refusal :=
  match front s with
  | .stopped f => .fault f
  | .raised t => .next t
  | .run i => exec i s

/-- `s` with an opcode table word stored at the program counter, where the next step fetches (log 2). -/
def State.withFetchWord (s : State) (nbits w : Nat) : State := s.placeBytes s.pc.toNat (tableBytes nbits w)

end Sys2Proof.Machine
end

