-- ==== Sys2Proof/Machine/HostActions.lean ====
section
/-! DEFINITION. What the host may do between steps (70_reset_and_hazards.md R122, R124, R126) and what it may observe
(60_exceptions.md R116). None of these is a step of the machine (log 5). -/

namespace Sys2Proof.Machine

/-- The launch state for a program image (R122): reset, then the image from address 0. None for an image longer than 256
bytes, which never reaches the hardware (92_eei_decisions.md D13). -/
def State.launch (img : List Byte) : Option State :=
  if img.length ≤ Config.memSize then some (State.reset.placeBytes 0 img) else none

/-- The host's forced halt (R126): in Running only, `halted` is set and nothing else changes. -/
def State.forceHalt (s : State) : Option State :=
  if s.runState = .running then some s.halt else none

/-- What the trace hook shows (R116). -/
structure TraceTuple where
  pc : Byte
  ir : Byte
  opa : Byte
  opb : Byte
  regs : RegFile
deriving DecidableEq, Repr

/-- The trace hook's observation of the next step: after the prefetch and before the classification, none when the prefetch
fails (92_eei_decisions.md D21; UNVERIFIED, log 17: safe) or when no step is enabled (DESIGN CHOICE, log 17: safe). -/
def State.trace (s : State) : Option TraceTuple :=
  if s.runState = .running then
    match fetch s with
    | .ok w => some ⟨s.pc, w.1, w.2.1, w.2.2, s.regs⟩
    | .error _ => none
  else none

end Sys2Proof.Machine
end

