-- ==== Sys2Proof/Safety.lean ====
section
/-! DEFINITION. The terms in which claims are stated: running and finished states, what stays unchanged, a fault taken, and
the invariant of the machine. -/

namespace Sys2Proof.Machine

/-- Running (10_state.md R20): the step is enabled. -/
abbrev State.Running (s : State) : Prop := s.halted = false ∧ s.fault = none

/-- A clean end (10_state.md R20, 60_exceptions.md R108): Halted, and no fault. -/
abbrev State.CleanEnd (s : State) : Prop := s.halted = true ∧ s.fault = none

/-- Every byte of memory reads the same. -/
def SameMemory (s t : State) : Prop := ∀ a : Nat, Memory.read t.mem a = Memory.read s.mem a

/-- Every register reads the same. -/
def SameRegs (s t : State) : Prop := ∀ r : Reg, t.reg r = s.reg r

/-- Every register but one reads the same, and that one holds `v`. -/
def OneRegSet (s t : State) (d : Reg) (v : Byte) : Prop := ∀ r : Reg, t.reg r = if r = d then v else s.reg r

/-- `halted` and `fault` are unchanged. -/
def SameRunState (s t : State) : Prop := t.halted = s.halted ∧ t.fault = s.fault

/-- The fatal error `k` was taken from `s`, recording instruction byte `ir`, and nothing else changed (60_exceptions.md R105, R106). -/
def FaultsWith (s t : State) (k : ErrorKind) (ir : Byte) : Prop :=
  t.fault = some ⟨k, s.pc, ir⟩ ∧ SameRegs s t ∧ t.pc = s.pc ∧ SameMemory s t ∧ t.halted = s.halted ∧ t.out = s.out

/-- The invariant: memory in canonical form; never both Halted and Faulted (10_state.md R20); a fault record that names the
byte the program counter still points at (60_exceptions.md R105, R106). -/
structure Inv (s : State) : Prop where
  memory_canonical : Memory.wf s.mem = true
  one_terminal_state : s.halted = true → s.fault = none
  record_names_pc : ∀ f, s.fault = some f → f.pc = s.pc ∧ f.ir = s.ir

/-- The first error a Running step meets, from the program counter and the three bytes (60_exceptions.md R107, R112), written
from the table of R112 and not from the step. -/
def firstError (pc : Nat) (ir opa opb : Byte) : Option ErrorKind :=
  if 254 ≤ pc then some .outOfBounds
  else if ir = 0x01 then none
  else if ir = 0x47 ∨ ir = 0x45 ∨ ir = 0x46 ∨ ir = 0x54 ∨ ir = 0x55 ∨ ir = 0x56 then
    if 8 ≤ opa.toNat then some .invalidRegister else none
  else if ir = 0x82 then
    if 8 ≤ opa.toNat then some .invalidRegister else if pc = 253 then some .outOfBounds else none
  else if ir = 0xA0 ∨ ir = 0xA2 ∨ ir = 0xA7 then
    if 8 ≤ opa.toNat ∨ 8 ≤ opb.toNat then some .invalidRegister else if pc = 253 then some .outOfBounds else none
  else if ir.getLsbD 5 then some .unsupportedAluOperation
  else some .unknownInstruction

end Sys2Proof.Machine
end

