-- ==== Sys2Proof/Certificates/Slice0/Obligations.lean ====
section
/-! DEFINITION. The statements for the provers. A docstring names the rule or section of spec/ that a statement formalises, and
the spec's own decision (D<n> of 92_eei_decisions.md) where it rests on one. -/

open Sys2Proof Sys2Proof.Machine

/-! ## The eleven instructions: result, frame, errors -/

/-- R80. LDI: the three bytes, the load of imm8 with its frame, and the two errors, `InvalidRegister` first. -/
def Obligations.LdiLoadsImmediate : Prop :=
  ∀ (imm : Byte) (s : State),
    (∀ reg : Byte, decode 0x82 reg imm = .ok (.ldi reg imm) ∧ encode (.ldi reg imm) = [0x82, reg, imm]) ∧
    (∀ r : Reg, s.pc.toNat ≤ 252 →
      ∃ t, exec (.ldi r.code imm) s = .next t ∧ OneRegSet s t r imm ∧ t.pc.toNat = s.pc.toNat + 3 ∧
        SameMemory s t ∧ SameRunState s t ∧ t.out = s.out) ∧
    (∀ b : Byte, 8 ≤ b.toNat → ∃ t, exec (.ldi b imm) s = .next t ∧ FaultsWith s t .invalidRegister 0x82) ∧
    (∀ r : Reg, 253 ≤ s.pc.toNat → ∃ t, exec (.ldi r.code imm) s = .next t ∧ FaultsWith s t .outOfBounds 0x82)

/-- R81. PRN: the two bytes and the ignored third, the value appended with its frame, and the error. -/
def Obligations.PrnEmitsRegister : Prop :=
  ∀ s : State,
    (∀ reg opb : Byte, decode 0x47 reg opb = .ok (.prn reg) ∧ encode (.prn reg) = [0x47, reg]) ∧
    (∀ r : Reg, s.pc.toNat ≤ 253 →
      ∃ t, exec (.prn r.code) s = .next t ∧ t.out = s.out ++ [s.reg r] ∧ t.pc.toNat = s.pc.toNat + 2 ∧
        SameRegs s t ∧ SameMemory s t ∧ SameRunState s t) ∧
    (∀ b : Byte, 8 ≤ b.toNat → ∃ t, exec (.prn b) s = .next t ∧ FaultsWith s t .invalidRegister 0x47)

/-- R90. HLT: the one byte, `halted` set with pc and all else unchanged, no step after it, the prefetch fault at 254 and 255, and
that no other instruction sets `halted`. -/
def Obligations.HltHalts : Prop :=
  ∀ s : State,
    (∀ opa opb : Byte, decode 0x01 opa opb = .ok .hlt) ∧ encode .hlt = [0x01] ∧
    (∃ t, exec .hlt s = .next t ∧ t.halted = true ∧ t.pc = s.pc ∧ SameRegs s t ∧ SameMemory s t ∧ t.out = s.out ∧
      t.fault = s.fault ∧ ∀ u, step t ≠ .next u) ∧
    (s.Running → 254 ≤ s.pc.toNat → Memory.read s.mem s.pc.toNat = 0x01 →
      ∃ t, step s = .next t ∧ FaultsWith s t .outOfBounds 0x01 ∧ t.halted = false) ∧
    (∀ (i : Instr) (t : State), exec i s = .next t → s.halted = false → t.halted = true → i = .hlt)

/-- 42_stack.md, PUSH (R85), with the spec's decisions D4 (R7 wraps from 0 to 255) and D6 (PUSH R7 stores the decremented R7). The
address stored to is the decremented R7 and the byte stored is the register as it is after the decrement. -/
def Obligations.PushStoresBelowStackPointer : Prop :=
  ∀ s : State,
    (∀ reg opb : Byte, decode 0x45 reg opb = .ok (.push reg) ∧ encode (.push reg) = [0x45, reg]) ∧
    (∀ r : Reg, s.pc.toNat ≤ 253 →
      ∃ t, exec (.push r.code) s = .next t ∧
        (t.reg .r7).toNat = ((s.reg .r7).toNat + 255) % 256 ∧ (∀ q : Reg, q ≠ .r7 → t.reg q = s.reg q) ∧
        Memory.read t.mem (((s.reg .r7).toNat + 255) % 256) = t.reg r ∧
        (∀ a : Nat, a ≠ ((s.reg .r7).toNat + 255) % 256 → Memory.read t.mem a = Memory.read s.mem a) ∧
        t.pc.toNat = s.pc.toNat + 2 ∧ SameRunState s t ∧ t.out = s.out) ∧
    (∀ b : Byte, 8 ≤ b.toNat → ∃ t, exec (.push b) s = .next t ∧ FaultsWith s t .invalidRegister 0x45)

/-- 42_stack.md, POP (R86), with the spec's decisions D4 (R7 wraps from 255 to 0) and D6 (POP R7 loads R7, then increments it). -/
def Obligations.PopLoadsFromStackPointer : Prop :=
  ∀ s : State,
    (∀ reg opb : Byte, decode 0x46 reg opb = .ok (.pop reg) ∧ encode (.pop reg) = [0x46, reg]) ∧
    (∀ r : Reg, s.pc.toNat ≤ 253 →
      ∃ t, exec (.pop r.code) s = .next t ∧
        (r ≠ .r7 → t.reg r = Memory.read s.mem (s.reg .r7).toNat ∧ (t.reg .r7).toNat = ((s.reg .r7).toNat + 1) % 256) ∧
        (r = .r7 → (t.reg .r7).toNat = ((Memory.read s.mem (s.reg .r7).toNat).toNat + 1) % 256) ∧
        (∀ q : Reg, q ≠ r → q ≠ .r7 → t.reg q = s.reg q) ∧
        SameMemory s t ∧ t.pc.toNat = s.pc.toNat + 2 ∧ SameRunState s t ∧ t.out = s.out) ∧
    (∀ b : Byte, 8 ≤ b.toNat → ∃ t, exec (.pop b) s = .next t ∧ FaultsWith s t .invalidRegister 0x46)

/-- R91. JMP: the two bytes, pc set to the register and nothing else changed, the error, and a target of 254 or 255, which
faults at the next step. -/
def Obligations.JmpSetsProgramCounter : Prop :=
  ∀ s : State,
    (∀ reg opb : Byte, decode 0x54 reg opb = .ok (.jmp reg) ∧ encode (.jmp reg) = [0x54, reg]) ∧
    (∀ r : Reg, ∃ t, exec (.jmp r.code) s = .next t ∧ t.pc = s.reg r ∧ SameRegs s t ∧ SameMemory s t ∧ SameRunState s t ∧
      t.out = s.out ∧
      (s.Running → 254 ≤ (s.reg r).toNat →
        ∃ u, step t = .next u ∧ FaultsWith t u .outOfBounds (Memory.read t.mem t.pc.toNat))) ∧
    (∀ b : Byte, 8 ≤ b.toNat → ∃ t, exec (.jmp b) s = .next t ∧ FaultsWith s t .invalidRegister 0x54)

/-- 43_control_flow.md, JEQ (R92), with the spec's decisions D5 (the whole of R6 is compared with 0x01) and D7 (the register is
checked whether or not the jump is taken). -/
def Obligations.JeqJumpsOnEqual : Prop :=
  ∀ s : State,
    (∀ reg opb : Byte, decode 0x55 reg opb = .ok (.jeq reg) ∧ encode (.jeq reg) = [0x55, reg]) ∧
    (∀ r : Reg, s.reg .r6 = 0x01 → ∃ t, exec (.jeq r.code) s = .next t ∧ t.pc = s.reg r ∧
      SameRegs s t ∧ SameMemory s t ∧ SameRunState s t ∧ t.out = s.out) ∧
    (∀ r : Reg, s.reg .r6 ≠ 0x01 → s.pc.toNat ≤ 253 → ∃ t, exec (.jeq r.code) s = .next t ∧ t.pc.toNat = s.pc.toNat + 2 ∧
      SameRegs s t ∧ SameMemory s t ∧ SameRunState s t ∧ t.out = s.out) ∧
    (∀ b : Byte, 8 ≤ b.toNat → ∃ t, exec (.jeq b) s = .next t ∧ FaultsWith s t .invalidRegister 0x55)

/-- 43_control_flow.md, JNE (R93), with the spec's decisions D5 and D7. -/
def Obligations.JneJumpsOnNotEqual : Prop :=
  ∀ s : State,
    (∀ reg opb : Byte, decode 0x56 reg opb = .ok (.jne reg) ∧ encode (.jne reg) = [0x56, reg]) ∧
    (∀ r : Reg, s.reg .r6 ≠ 0x01 → ∃ t, exec (.jne r.code) s = .next t ∧ t.pc = s.reg r ∧
      SameRegs s t ∧ SameMemory s t ∧ SameRunState s t ∧ t.out = s.out) ∧
    (∀ r : Reg, s.reg .r6 = 0x01 → s.pc.toNat ≤ 253 → ∃ t, exec (.jne r.code) s = .next t ∧ t.pc.toNat = s.pc.toNat + 2 ∧
      SameRegs s t ∧ SameMemory s t ∧ SameRunState s t ∧ t.out = s.out) ∧
    (∀ b : Byte, 8 ≤ b.toNat → ∃ t, exec (.jne b) s = .next t ∧ FaultsWith s t .invalidRegister 0x56)

/-- R95. ADD: the three bytes, the sum modulo 256 with its frame (R6 changes only as a destination), and the two errors. -/
def Obligations.AddIsModulo256 : Prop :=
  ∀ s : State,
    (∀ a b : Byte, decode 0xA0 a b = .ok (.add a b) ∧ encode (.add a b) = [0xA0, a, b]) ∧
    (∀ ra rb : Reg, s.pc.toNat ≤ 252 →
      ∃ t, exec (.add ra.code rb.code) s = .next t ∧ (t.reg ra).toNat = ((s.reg ra).toNat + (s.reg rb).toNat) % 256 ∧
        (∀ q : Reg, q ≠ ra → t.reg q = s.reg q) ∧ t.pc.toNat = s.pc.toNat + 3 ∧
        SameMemory s t ∧ SameRunState s t ∧ t.out = s.out) ∧
    (∀ a b : Byte, 8 ≤ a.toNat ∨ 8 ≤ b.toNat →
      ∃ t, exec (.add a b) s = .next t ∧ FaultsWith s t .invalidRegister 0xA0) ∧
    (∀ ra rb : Reg, 253 ≤ s.pc.toNat → ∃ t, exec (.add ra.code rb.code) s = .next t ∧ FaultsWith s t .outOfBounds 0xA0)

/-- R96. MUL: the three bytes, the product modulo 256 with its frame, and the two errors. -/
def Obligations.MulIsModulo256 : Prop :=
  ∀ s : State,
    (∀ a b : Byte, decode 0xA2 a b = .ok (.mul a b) ∧ encode (.mul a b) = [0xA2, a, b]) ∧
    (∀ ra rb : Reg, s.pc.toNat ≤ 252 →
      ∃ t, exec (.mul ra.code rb.code) s = .next t ∧ (t.reg ra).toNat = ((s.reg ra).toNat * (s.reg rb).toNat) % 256 ∧
        (∀ q : Reg, q ≠ ra → t.reg q = s.reg q) ∧ t.pc.toNat = s.pc.toNat + 3 ∧
        SameMemory s t ∧ SameRunState s t ∧ t.out = s.out) ∧
    (∀ a b : Byte, 8 ≤ a.toNat ∨ 8 ≤ b.toNat →
      ∃ t, exec (.mul a b) s = .next t ∧ FaultsWith s t .invalidRegister 0xA2) ∧
    (∀ ra rb : Reg, 253 ≤ s.pc.toNat → ∃ t, exec (.mul ra.code rb.code) s = .next t ∧ FaultsWith s t .outOfBounds 0xA2)

/-- 44_alu.md, CMP (R97), with the spec's decision D16 (the whole byte of R6 is written). The order is unsigned and the operands
are read before R6 is written. -/
def Obligations.CmpStoresOnePattern : Prop :=
  ∀ s : State,
    (∀ a b : Byte, decode 0xA7 a b = .ok (.cmp a b) ∧ encode (.cmp a b) = [0xA7, a, b]) ∧
    (∀ ra rb : Reg, s.pc.toNat ≤ 252 →
      ∃ t, exec (.cmp ra.code rb.code) s = .next t ∧
        ((s.reg ra).toNat = (s.reg rb).toNat → t.reg .r6 = 0x01) ∧
        ((s.reg ra).toNat < (s.reg rb).toNat → t.reg .r6 = 0x04) ∧
        ((s.reg rb).toNat < (s.reg ra).toNat → t.reg .r6 = 0x02) ∧
        (∀ q : Reg, q ≠ .r6 → t.reg q = s.reg q) ∧ t.pc.toNat = s.pc.toNat + 3 ∧
        SameMemory s t ∧ SameRunState s t ∧ t.out = s.out) ∧
    (∀ a b : Byte, 8 ≤ a.toNat ∨ 8 ≤ b.toNat →
      ∃ t, exec (.cmp a b) s = .next t ∧ FaultsWith s t .invalidRegister 0xA7) ∧
    (∀ ra rb : Reg, 253 ≤ s.pc.toNat → ∃ t, exec (.cmp ra.code rb.code) s = .next t ∧ FaultsWith s t .outOfBounds 0xA7)

/-! ## Memory and the ALU -/

/-- R31. `MemRead`: the byte at an address below 256, `OutOfBounds` from 256 on. It answers no state, so it changes none. -/
def Obligations.MemReadIsBounded : Prop :=
  ∀ (s : State) (a : Nat),
    (a < 256 → s.memRead a = .ok (Memory.read s.mem a)) ∧ (256 ≤ a → s.memRead a = .error .outOfBounds)

/-- 20_memory.md, `MemWrite` (R32, its first sentence): `v mod 256` at an address below 256 and every other byte and field
unchanged, `OutOfBounds` from 256 on. -/
def Obligations.MemWriteChangesOneByte : Prop :=
  ∀ (s : State) (a v : Nat),
    (a < 256 → ∃ t, s.memWrite a v = .ok t ∧ (Memory.read t.mem a).toNat = v % 256 ∧
      (∀ b : Nat, b ≠ a → Memory.read t.mem b = Memory.read s.mem b) ∧ SameRegs s t ∧ t.pc = s.pc ∧ SameRunState s t ∧
      t.out = s.out) ∧
    (256 ≤ a → s.memWrite a v = .error .outOfBounds)

/-- 10_state.md, memory (R19); the canonical form is the model's choice (log 6): two memories in canonical form that read the same
at all 256 addresses are the same data. -/
def Obligations.EqualReadsAreEqualMemories : Prop :=
  ∀ m n : Memory, Memory.wf m = true → Memory.wf n = true →
    (∀ a : Nat, a < 256 → Memory.read m a = Memory.read n a) → m = n

/-- 44_alu.md, the part `alu_8bit` (R99; the interface is the spec's decision D12): three selectors, and an error for every other. -/
def Obligations.AluComputesThreeOperations : Prop :=
  ∀ a b : Byte,
    (∃ v : Byte, alu 0xA0 a b = .ok (.regA, v) ∧ v.toNat = (a.toNat + b.toNat) % 256) ∧
    (∃ v : Byte, alu 0xA2 a b = .ok (.regA, v) ∧ v.toNat = (a.toNat * b.toNat) % 256) ∧
    (∃ v : Byte, alu 0xA7 a b = .ok (.flags, v) ∧ (v = 0x01 ↔ a = b) ∧ (v = 0x04 ↔ a.toNat < b.toNat) ∧
      (v = 0x02 ↔ b.toNat < a.toNat)) ∧
    (∀ sel : Byte, sel ≠ 0xA0 → sel ≠ 0xA2 → sel ≠ 0xA7 → alu sel a b = .error .unsupportedAluOperation)

/-! ## Decoding and encoding -/

/-- 30_encoding.md, formats and opcodes (R50 to R53): the decoder reads back every instruction, each operand at every value, from
its own bytes whatever bytes follow them. -/
def Obligations.DecodeInvertsEncode : Prop :=
  ∀ (i : Instr) (x y : Byte) (rest : List Byte), decodeBytes (encode i ++ (x :: y :: rest)) = .ok i

/-- 40_step_loop.md, the step (R70, R71), and 30_encoding.md, formats (R50): an instruction whose bytes lie at a program counter of
at most 253 is the one a Running step executes, each operand at every value, whatever bytes lie after it. -/
def Obligations.StoredInstructionIsExecuted : Prop :=
  ∀ (i : Instr) (s : State), s.Running → s.pc.toNat ≤ 253 →
    (∀ k (h : k < (encode i).length), Memory.read s.mem (s.pc.toNat + k) = (encode i)[k]) → step s = exec i s

/-- 30_encoding.md, formats and opcodes (R50 to R53): the bytes of a decoded instruction are the first of the bytes it was
decoded from, as many as its length. -/
def Obligations.EncodeInvertsDecode : Prop :=
  ∀ (ir opa opb : Byte) (i : Instr), decode ir opa opb = .ok i →
    encode i = [ir, opa, opb].take i.length ∧ 1 ≤ i.length ∧ i.length ≤ 3

/-- R54. The classification of the instruction byte: the eight fixed-dispatch opcodes, else bit 5 and the three ALU opcodes, else
the two errors by bit 5. The operand bytes never change the class. -/
def Obligations.InstructionByteIsClassified : Prop :=
  ∀ opa opb : Byte,
    (decode 0x82 opa opb = .ok (.ldi opa opb) ∧ decode 0x47 opa opb = .ok (.prn opa) ∧ decode 0x01 opa opb = .ok .hlt ∧
      decode 0x45 opa opb = .ok (.push opa) ∧ decode 0x46 opa opb = .ok (.pop opa) ∧ decode 0x54 opa opb = .ok (.jmp opa) ∧
      decode 0x55 opa opb = .ok (.jeq opa) ∧ decode 0x56 opa opb = .ok (.jne opa) ∧ decode 0xA0 opa opb = .ok (.add opa opb) ∧
      decode 0xA2 opa opb = .ok (.mul opa opb) ∧ decode 0xA7 opa opb = .ok (.cmp opa opb)) ∧
    (∀ ir : Byte, decode ir opa opb = .error .unsupportedAluOperation ↔
      ir.getLsbD 5 = true ∧ ir ∉ [0xA0, 0xA2, 0xA7]) ∧
    (∀ ir : Byte, decode ir opa opb = .error .unknownInstruction ↔
      ir.getLsbD 5 = false ∧ ir ∉ [0x82, 0x47, 0x01, 0x45, 0x46, 0x54, 0x55, 0x56]) ∧
    (∀ (ir : Byte) (k : ErrorKind), decode ir opa opb = .error k → k = .unsupportedAluOperation ∨ k = .unknownInstruction)

/-- 30_encoding.md, illegal encodings (R56), and 95_test_vectors.md, totals: 11 legal bytes, 120 unknown, 125 unsupported. -/
def Obligations.IllegalByteTotals : Prop :=
  ((List.range 256).filter (fun n => (decode (BitVec.ofNat 8 n) 0 0).isOk)).length = 11 ∧
    ((List.range 256).filter (fun n => decode (BitVec.ofNat 8 n) 0 0 = .error .unknownInstruction)).length = 120 ∧
    ((List.range 256).filter (fun n => decode (BitVec.ofNat 8 n) 0 0 = .error .unsupportedAluOperation)).length = 125

/-- 95_test_vectors.md: words written out from the spec's encodings, one of each instruction. -/
def Obligations.SpecWordsDecode : Prop :=
  decodeBytes [0b10000010, 0x03, 0x2A] = .ok (.ldi 3 42) ∧ decodeBytes [0b01000111, 0x00, 0xEE] = .ok (.prn 0) ∧
    decodeBytes [0b00000001, 0x00, 0x00] = .ok .hlt ∧ decodeBytes [0b01000101, 0x01, 0x00] = .ok (.push 1) ∧
    decodeBytes [0b01000110, 0x06, 0x00] = .ok (.pop 6) ∧ decodeBytes [0b01010100, 0x04, 0x00] = .ok (.jmp 4) ∧
    decodeBytes [0b01010101, 0x02, 0x00] = .ok (.jeq 2) ∧ decodeBytes [0b01010110, 0xC8, 0x00] = .ok (.jne 200) ∧
    decodeBytes [0b10100000, 0x02, 0x00] = .ok (.add 2 0) ∧ decodeBytes [0b10100010, 0x00, 0x01] = .ok (.mul 0 1) ∧
    decodeBytes [0b10100111, 0x06, 0x00] = .ok (.cmp 6 0)

/-! ## The step -/

/-- 40_step_loop.md, the step (R70): in Running, where the prefetch is in bounds and its bytes decode, the step is `exec` of the
decoded instruction, well formed or not, and nothing is added around it. -/
def Obligations.StepRunsDecodedInstruction : Prop :=
  ∀ (s : State) (i : Instr), s.Running → s.pc.toNat ≤ 253 →
    decode (Memory.read s.mem s.pc.toNat) (Memory.read s.mem (s.pc.toNat + 1)) (Memory.read s.mem (s.pc.toNat + 2)) = .ok i →
    step s = exec i s

/-- 40_step_loop.md, the step (R70: "It is enabled if and only if the run state is Running"), and the spec's decision D22. -/
def Obligations.StepIsEnabledExactlyInRunning : Prop :=
  ∀ s : State, (∃ t, step s = .next t) ↔ s.Running

/-- 10_state.md, the run states (R20), and the spec's decision D22: no step is enabled in a terminal state. That the step then
answers the named model faults `.faulted` and `.halted` is the model's choice (log 1), and so is that a state with both fields set
counts as Faulted (log 3). -/
def Obligations.TerminalStatesStop : Prop :=
  ∀ s : State, (s.fault ≠ none → step s = .fault .faulted) ∧ (s.fault = none → s.halted = true → step s = .fault .halted)

/-- 40_step_loop.md, the prefetch bound (R72), the spec's decision D15: at 254 and 255 the step raises `OutOfBounds` whatever the
instruction byte is. -/
def Obligations.PrefetchPastTopFaults : Prop :=
  ∀ s : State, s.Running → 254 ≤ s.pc.toNat →
    ∃ t, step s = .next t ∧ FaultsWith s t .outOfBounds (Memory.read s.mem s.pc.toNat)

/-- R103. `UnknownInstruction`: its cause, exactly, with pc at most 253, and what it records. -/
def Obligations.UnknownInstructionIsRaised : Prop :=
  ∀ s : State, s.Running → s.pc.toNat ≤ 253 →
    (((Memory.read s.mem s.pc.toNat).getLsbD 5 = false ∧
        Memory.read s.mem s.pc.toNat ∉ [0x82, 0x47, 0x01, 0x45, 0x46, 0x54, 0x55, 0x56]) ↔
      ∃ t, step s = .next t ∧ FaultsWith s t .unknownInstruction (Memory.read s.mem s.pc.toNat))

/-- R104. `UnsupportedAluOperation`: its cause, exactly, with pc at most 253, and what it records. -/
def Obligations.UnsupportedAluOperationIsRaised : Prop :=
  ∀ s : State, s.Running → s.pc.toNat ≤ 253 →
    (((Memory.read s.mem s.pc.toNat).getLsbD 5 = true ∧ Memory.read s.mem s.pc.toNat ∉ [0xA0, 0xA2, 0xA7]) ↔
      ∃ t, step s = .next t ∧ FaultsWith s t .unsupportedAluOperation (Memory.read s.mem s.pc.toNat))

/-- 60_exceptions.md, entry and precision (R105, R106), the spec's decisions D8 and D10: a step that ends in a fault records its
kind, the pc and the instruction byte, and changes nothing else. -/
def Obligations.FaultsArePrecise : Prop :=
  ∀ s t : State, step s = .next t → t.fault ≠ none → ∃ k, FaultsWith s t k (Memory.read s.mem s.pc.toNat)

/-- 60_exceptions.md, the error matrix and the priority of errors (R107, R112), the spec's decision D9: a Running step raises
exactly the first error of the table, or none. -/
def Obligations.FirstErrorIsReported : Prop :=
  ∀ s : State, s.Running →
    ∃ t, step s = .next t ∧
      t.fault.map FaultRecord.kind =
        firstError s.pc.toNat (Memory.read s.mem s.pc.toNat) (Memory.read s.mem (s.pc.toNat + 1))
          (Memory.read s.mem (s.pc.toNat + 2))

/-- 10_state.md, how each instruction changes pc (R16), with the spec's decision D3 (no wrap). -/
def Obligations.ProgramCounterTable : Prop :=
  ∀ s t : State, step s = .next t →
    (t.fault ≠ none → t.pc = s.pc) ∧
    (t.fault = none → Memory.read s.mem s.pc.toNat ∈ [0x82, 0xA0, 0xA2, 0xA7] → t.pc.toNat = s.pc.toNat + 3) ∧
    (t.fault = none → Memory.read s.mem s.pc.toNat ∈ [0x47, 0x45, 0x46] → t.pc.toNat = s.pc.toNat + 2) ∧
    (t.fault = none → Memory.read s.mem s.pc.toNat = 0x01 → t.pc = s.pc) ∧
    (t.fault = none → Memory.read s.mem s.pc.toNat ∈ [0x54, 0x55, 0x56] →
      ∃ r : Reg, Memory.read s.mem (s.pc.toNat + 1) = r.code ∧
        (Memory.read s.mem s.pc.toNat = 0x54 ∨ (Memory.read s.mem s.pc.toNat = 0x55 ∧ s.reg .r6 = 0x01) ∨
            (Memory.read s.mem s.pc.toNat = 0x56 ∧ s.reg .r6 ≠ 0x01) → t.pc = s.reg r) ∧
        ((Memory.read s.mem s.pc.toNat = 0x55 ∧ s.reg .r6 ≠ 0x01) ∨ (Memory.read s.mem s.pc.toNat = 0x56 ∧ s.reg .r6 = 0x01) →
          t.pc.toNat = s.pc.toNat + 2))

/-- 43_control_flow.md, HLT (R90), and 40_step_loop.md, the ends of a run (R75): among steps only one that executes HLT halts. -/
def Obligations.OnlyHltHalts : Prop :=
  ∀ s t : State, step s = .next t →
    (t.halted = true ↔ s.pc.toNat ≤ 253 ∧ Memory.read s.mem s.pc.toNat = 0x01)

/-- 10_state.md, the output sequence (R21, the spec's decision D17): a step appends nothing, or it is a PRN and appends the value of
its register. -/
def Obligations.OnlyPrnEmits : Prop :=
  ∀ s t : State, step s = .next t →
    t.out = s.out ∨
      (Memory.read s.mem s.pc.toNat = 0x47 ∧
        ∃ r : Reg, Memory.read s.mem (s.pc.toNat + 1) = r.code ∧ t.out = s.out ++ [s.reg r])

/-- 20_memory.md, the accesses of a step (R32, R33): a step that changes a byte of memory is a PUSH, and the byte is the one just
below R7. -/
def Obligations.OnlyPushWritesMemory : Prop :=
  ∀ (s t : State) (a : Nat), step s = .next t → Memory.read t.mem a ≠ Memory.read s.mem a →
    Memory.read s.mem s.pc.toNat = 0x45 ∧ a = ((s.reg .r7).toNat + 255) % 256

/-- 10_state.md, implicit register uses (R13), and the ordinary register convention (R11): a register that a step changes is the
destination that its operand names, or R7 in PUSH and POP, or R6 in CMP. -/
def Obligations.OnlyNamedRegistersChange : Prop :=
  ∀ (s t : State) (q : Reg), step s = .next t → t.reg q ≠ s.reg q →
    (Memory.read s.mem s.pc.toNat ∈ [0x82, 0x46, 0xA0, 0xA2] ∧ Memory.read s.mem (s.pc.toNat + 1) = q.code) ∨
      (Memory.read s.mem s.pc.toNat ∈ [0x45, 0x46] ∧ q = .r7) ∨ (Memory.read s.mem s.pc.toNat = 0xA7 ∧ q = .r6)

/-- 40_step_loop.md (R70: "a total, deterministic function of the state", from a Running state): no instruction is refused and
none stops the model. A fatal error counts as a next state here (log 1), so this is no completion of an effect. That `exec` also
answers outside Running and at pc 254 and 255, where the step never calls it, is the model's choice (log 4). -/
def Obligations.EveryInstructionAnswersNext : Prop :=
  ∀ (i : Instr) (s : State), ∃ t, exec i s = .next t

/-! ## Invariants and isolation -/

/-- 10_state.md (R20, "never both set") and 60_exceptions.md (R105, R106); the canonical form of memory is the model's (log 6): every
step keeps the invariant, from every state that has it. -/
def Obligations.StepKeepsInvariant : Prop :=
  ∀ s t : State, Inv s → step s = .next t → Inv t

/-- 70_reset_and_hazards.md, reset (R120), and 10_state.md (R20): the reset state has the invariant. Its clause
`memory_canonical` is the model's choice (log 6), which no rule says. -/
def Obligations.ResetHasInvariant : Prop := Inv State.reset

/-- 10_state.md, the output sequence (R21: "Nothing reads `out` back into the machine"): from two states that differ only in `out`,
a step appends the same values to both and the two results differ only in `out`, and a state that stops the one stops the other,
with the same model fault (log 1). -/
def Obligations.OutputIsNeverReadBack : Prop :=
  ∀ (s : State) (o : List Byte),
    (∀ t, step s = .next t → ∃ l, t.out = s.out ++ l ∧ step { s with out := o } = .next { t with out := o ++ l }) ∧
    (∀ f, step s = .fault f → step { s with out := o } = .fault f)

/-! ## Two steps and whole runs -/

/-- 42_stack.md, the property of PUSH and POP (R86; 90_conflicts.md C5): for registers other than R7, PUSH then POP hands the value
over and restores R7, wrap-around included, and changes no other register. No act of the host comes between them (log 5). -/
def Obligations.PushThenPopRestores : Prop :=
  ∀ (s : State) (r q : Reg), r ≠ .r7 → q ≠ .r7 → s.pc.toNat ≤ 251 →
    ∃ t u, exec (.push r.code) s = .next t ∧ exec (.pop q.code) t = .next u ∧ u.reg q = s.reg r ∧
      (∀ p : Reg, p ≠ q → u.reg p = s.reg p)

/-- 43_control_flow.md, the properties of JEQ and JNE after CMP (R92, R93): JEQ jumps exactly when the two registers were equal
before the CMP, JNE exactly when they were not. No act of the host comes between them (log 5). -/
def Obligations.CompareThenJump : Prop :=
  ∀ (s : State) (ra rb r : Reg), s.pc.toNat ≤ 250 →
    ∃ t u v, exec (.cmp ra.code rb.code) s = .next t ∧ exec (.jeq r.code) t = .next u ∧ exec (.jne r.code) t = .next v ∧
      (s.reg ra = s.reg rb → u.pc = t.reg r ∧ v.pc.toNat = s.pc.toNat + 5) ∧
      (s.reg ra ≠ s.reg rb → u.pc.toNat = s.pc.toNat + 5 ∧ v.pc = t.reg r)

/-- 20_memory.md, instruction-fetch coherence (R42): a byte stored by PUSH at the address where the next instruction starts is the
next step's instruction byte. No act of the host comes between them (log 5). -/
def Obligations.StoreIsSeenByNextFetch : Prop :=
  ∀ (s : State) (r : Reg), s.pc.toNat ≤ 251 → s.pc.toNat + 2 = ((s.reg .r7).toNat + 255) % 256 →
    ∃ t opa opb, exec (.push r.code) s = .next t ∧ fetch t = .ok (t.reg r, opa, opb)

/-- 43_control_flow.md, JMP's corner cases (R91), and 95_test_vectors.md J6: a JMP whose target is its own address leaves the
machine as it is after any number of steps. A run is steps alone: the statement assumes that the host forces no halt between them
(70_reset_and_hazards.md R126, the spec's decision D19; a halt beside the step is the model's choice, log 5). -/
def Obligations.JumpToItselfNeverEnds : Prop :=
  ∀ (s : State) (r : Reg) (n : Nat), s.Running → s.pc.toNat ≤ 253 → Memory.read s.mem s.pc.toNat = 0x54 →
    Memory.read s.mem (s.pc.toNat + 1) = r.code → s.reg r = s.pc → Host.Core.run Sys2Proof.core n s = .next s

/-! ## Reset, launch and the host -/

/-- 10_state.md, the whole state at a glance (R10), and 70_reset_and_hazards.md, reset (R120). R6 = 0x00 is the spec's decision D2,
pc = 0 is D1, no fault is D10 and empty output is D17. -/
def Obligations.ResetState : Prop :=
  (∀ r : Reg, r ≠ .r7 → State.reset.reg r = 0x00) ∧ State.reset.reg .r7 = 0xF4 ∧ State.reset.pc = 0 ∧
    (∀ a : Nat, Memory.read State.reset.mem a = 0x00) ∧ State.reset.halted = false ∧ State.reset.fault = none ∧
    State.reset.out = []

/-- 70_reset_and_hazards.md, launch (R122), the spec's decisions D1 and D13: an image of at most 256 bytes lies from address 0, zero
bytes follow it, and all else is as at reset; a longer image is no launch. The canonical form of memory, a clause of `Inv s`, is
the model's choice (log 6), which R122 does not say. -/
def Obligations.LaunchPlacesImage : Prop :=
  ∀ img : List Byte,
    (img.length ≤ 256 → ∃ s, State.launch img = some s ∧
      (∀ (k : Nat) (h : k < img.length), Memory.read s.mem k = img[k]) ∧
      (∀ k : Nat, img.length ≤ k → Memory.read s.mem k = 0x00) ∧
      SameRegs State.reset s ∧ s.pc = 0 ∧ s.Running ∧ s.out = [] ∧ Inv s) ∧
    (256 < img.length → State.launch img = none)

/-- 70_reset_and_hazards.md, forced halt (R126), the spec's decision D19: in Running `halted` is set and nothing else changes, no
step follows, and a machine that is not Running is left alone. That the act is no step is the model's choice (log 5). -/
def Obligations.ForcedHaltSetsHaltedOnly : Prop :=
  ∀ s : State,
    (s.Running → ∃ t, s.forceHalt = some t ∧ t.CleanEnd ∧ SameRegs s t ∧ t.pc = s.pc ∧ SameMemory s t ∧ t.out = s.out ∧
      ∀ u, step t ≠ .next u) ∧
    (¬ s.Running → s.forceHalt = none)

/-- 60_exceptions.md, the trace hook (R116): what it shows. That it shows nothing when the prefetch fails is the spec's decision
D21; that it shows nothing in a state that is not Running is the model's choice (log 17). -/
def Obligations.TraceShowsStateBeforeExecution : Prop :=
  ∀ s : State,
    (s.Running → s.pc.toNat ≤ 253 →
      s.trace = some ⟨s.pc, Memory.read s.mem s.pc.toNat, Memory.read s.mem (s.pc.toNat + 1),
        Memory.read s.mem (s.pc.toNat + 2), s.regs⟩) ∧
    (254 ≤ s.pc.toNat → s.trace = none) ∧ (¬ s.Running → s.trace = none)
end

