-- ==== Sys2Proof/Laws/Decode.lean ====
section
/-! SUPPORT. What the classification and the decoder can answer. -/

namespace Sys2Proof

/-- All that classification can answer, each class with the bytes it stands for. -/
theorem classify_spec (ir : Byte) :
    (classify ir = .ldi ∧ ir = Opcode.ldi) ∨ (classify ir = .prn ∧ ir = Opcode.prn) ∨ (classify ir = .hlt ∧ ir = Opcode.hlt) ∨
      (classify ir = .push ∧ ir = Opcode.push) ∨ (classify ir = .pop ∧ ir = Opcode.pop) ∨
      (classify ir = .jmp ∧ ir = Opcode.jmp) ∨ (classify ir = .jeq ∧ ir = Opcode.jeq) ∨ (classify ir = .jne ∧ ir = Opcode.jne) ∨
      (classify ir = .add ∧ ir = Opcode.add) ∨ (classify ir = .mul ∧ ir = Opcode.mul) ∨ (classify ir = .cmp ∧ ir = Opcode.cmp) ∨
      (classify ir = .unknownInstruction ∧ isAlu ir = false) ∨ (classify ir = .unsupportedAluOperation ∧ isAlu ir = true) := by
  revert ir; decide

/-- A decoded instruction carries the byte it was decoded from as its opcode. -/
theorem decode_opcode {ir opa opb : Byte} {i : Instr} (h : decode ir opa opb = .ok i) : i.opcode = ir := by
  unfold decode at h
  obtain ⟨e, hi⟩ | ⟨e, hi⟩ | ⟨e, hi⟩ | ⟨e, hi⟩ | ⟨e, hi⟩ | ⟨e, hi⟩ | ⟨e, hi⟩ | ⟨e, hi⟩ | ⟨e, hi⟩ | ⟨e, hi⟩ | ⟨e, hi⟩ | ⟨e, _⟩ | ⟨e, _⟩ :=
    classify_spec ir
  all_goals rw [e] at h; cases h
  all_goals exact hi.symm

end Sys2Proof
end

