-- ==== Sys2Proof/Laws/State.lean ====
section
/-! SUPPORT. One lemma per field per update of the state, so that no later proof unfolds a record update. -/

namespace Sys2Proof.Machine

@[simp] theorem RegFile.read_write (f : RegFile) (r q : Reg) (v : Byte) :
    (f.write r v).read q = if q = r then v else f.read q := by
  cases r <;> cases q <;> rfl

theorem RegFile.ext_read {f g : RegFile} (h : ∀ r : Reg, f.read r = g.read r) : f = g := by
  cases f; cases g
  simp only [RegFile.mk.injEq]
  exact ⟨h .r0, h .r1, h .r2, h .r3, h .r4, h .r5, h .r6, h .r7⟩

section setReg
variable (s : State) (r : Reg) (v : Byte)

@[simp] theorem State.setReg_reg (q : Reg) : (s.setReg r v).reg q = if q = r then v else s.reg q :=
  RegFile.read_write s.regs r q v
@[simp] theorem State.setReg_pc : (s.setReg r v).pc = s.pc := rfl
@[simp] theorem State.setReg_mem : (s.setReg r v).mem = s.mem := rfl
@[simp] theorem State.setReg_halted : (s.setReg r v).halted = s.halted := rfl
@[simp] theorem State.setReg_fault : (s.setReg r v).fault = s.fault := rfl
@[simp] theorem State.setReg_out : (s.setReg r v).out = s.out := rfl
end setReg

section setPc
variable (s : State) (p : Byte)

@[simp] theorem State.setPc_reg (q : Reg) : (s.setPc p).reg q = s.reg q := rfl
@[simp] theorem State.setPc_regs : (s.setPc p).regs = s.regs := rfl
@[simp] theorem State.setPc_pc : (s.setPc p).pc = p := rfl
@[simp] theorem State.setPc_mem : (s.setPc p).mem = s.mem := rfl
@[simp] theorem State.setPc_halted : (s.setPc p).halted = s.halted := rfl
@[simp] theorem State.setPc_fault : (s.setPc p).fault = s.fault := rfl
@[simp] theorem State.setPc_out : (s.setPc p).out = s.out := rfl
end setPc

section emit
variable (s : State) (v : Byte)

@[simp] theorem State.emit_reg (q : Reg) : (s.emit v).reg q = s.reg q := rfl
@[simp] theorem State.emit_regs : (s.emit v).regs = s.regs := rfl
@[simp] theorem State.emit_pc : (s.emit v).pc = s.pc := rfl
@[simp] theorem State.emit_mem : (s.emit v).mem = s.mem := rfl
@[simp] theorem State.emit_halted : (s.emit v).halted = s.halted := rfl
@[simp] theorem State.emit_fault : (s.emit v).fault = s.fault := rfl
@[simp] theorem State.emit_out : (s.emit v).out = s.out ++ [v] := rfl
end emit

section halt
variable (s : State)

@[simp] theorem State.halt_reg (q : Reg) : s.halt.reg q = s.reg q := rfl
@[simp] theorem State.halt_regs : s.halt.regs = s.regs := rfl
@[simp] theorem State.halt_pc : s.halt.pc = s.pc := rfl
@[simp] theorem State.halt_mem : s.halt.mem = s.mem := rfl
@[simp] theorem State.halt_halted : s.halt.halted = true := rfl
@[simp] theorem State.halt_fault : s.halt.fault = s.fault := rfl
@[simp] theorem State.halt_out : s.halt.out = s.out := rfl
end halt

section raise
variable (s : State) (k : ErrorKind) (ir : Byte)

@[simp] theorem State.raise_reg (q : Reg) : (s.raise k ir).reg q = s.reg q := rfl
@[simp] theorem State.raise_regs : (s.raise k ir).regs = s.regs := rfl
@[simp] theorem State.raise_pc : (s.raise k ir).pc = s.pc := rfl
@[simp] theorem State.raise_mem : (s.raise k ir).mem = s.mem := rfl
@[simp] theorem State.raise_halted : (s.raise k ir).halted = s.halted := rfl
@[simp] theorem State.raise_fault : (s.raise k ir).fault = some ⟨k, s.pc, ir⟩ := rfl
@[simp] theorem State.raise_out : (s.raise k ir).out = s.out := rfl
end raise

section sp
variable (s : State)

@[simp] theorem State.decSp_reg (q : Reg) : s.decSp.reg q = if q = .sp then s.reg .sp + 255 else s.reg q :=
  State.setReg_reg s .sp _ q
@[simp] theorem State.decSp_pc : s.decSp.pc = s.pc := rfl
@[simp] theorem State.decSp_mem : s.decSp.mem = s.mem := rfl
@[simp] theorem State.decSp_halted : s.decSp.halted = s.halted := rfl
@[simp] theorem State.decSp_fault : s.decSp.fault = s.fault := rfl
@[simp] theorem State.decSp_out : s.decSp.out = s.out := rfl
@[simp] theorem State.incSp_reg (q : Reg) : s.incSp.reg q = if q = .sp then s.reg .sp + 1 else s.reg q :=
  State.setReg_reg s .sp _ q
@[simp] theorem State.incSp_pc : s.incSp.pc = s.pc := rfl
@[simp] theorem State.incSp_mem : s.incSp.mem = s.mem := rfl
@[simp] theorem State.incSp_halted : s.incSp.halted = s.halted := rfl
@[simp] theorem State.incSp_fault : s.incSp.fault = s.fault := rfl
@[simp] theorem State.incSp_out : s.incSp.out = s.out := rfl
end sp

end Sys2Proof.Machine
end

