-- ==== Sys2Proof/Laws/Memory.lean ====
section
/-! SUPPORT. Memory: a read after a write, the canonical form kept by every operation, and what the two access primitives
and the placing of bytes can do. -/

namespace Sys2Proof.Machine

theorem Memory.read_erase (m : Memory) (a b : Nat) :
    Memory.read (Memory.erase m a) b = if b = a then Memory.unlisted else Memory.read m b := by
  induction m with
  | nil => simp [Memory.erase, Memory.read]
  | cons c m ih =>
    obtain ⟨x, w⟩ := c
    unfold Memory.erase
    split
    · rename_i hx
      subst hx
      rw [ih]
      by_cases hb : b = x
      · simp [hb]
      · rw [if_neg hb, if_neg hb, Memory.read, if_neg (Ne.symm hb)]
    · rename_i hx
      rw [Memory.read, Memory.read]
      by_cases hb : x = b
      · rw [if_pos hb, if_pos hb, if_neg (by omega)]
      · rw [if_neg hb, if_neg hb, ih]

theorem Memory.read_insert_erase (m : Memory) (a b : Nat) (v : Byte) :
    Memory.read (Memory.insert (Memory.erase m a) a v) b = if b = a then v else Memory.read m b := by
  induction m with
  | nil =>
    by_cases hb : b = a
    · rw [if_pos hb]; exact if_pos hb.symm
    · rw [if_neg hb]; exact if_neg (Ne.symm hb)
  | cons c m ih =>
    obtain ⟨x, w⟩ := c
    unfold Memory.erase
    split
    · rename_i hx
      subst hx
      rw [ih, Memory.read]
      by_cases hb : b = x
      · rw [if_pos hb, if_pos hb]
      · rw [if_neg hb, if_neg hb, if_neg (Ne.symm hb)]
    · rename_i hx
      rw [Memory.insert]
      split
      · by_cases hb : b = a
        · rw [if_pos hb]; exact if_pos hb.symm
        · rw [if_neg hb, Memory.read, if_neg (Ne.symm hb), Memory.read, Memory.read, Memory.read_erase, if_neg hb]
      · rw [Memory.read, Memory.read]
        by_cases hb : x = b
        · rw [if_pos hb, if_pos hb, if_neg (by omega)]
        · rw [if_neg hb, if_neg hb, ih]

/-- A read after a write: the value written at that address, every other address as before. -/
theorem Memory.read_write (m : Memory) (a b : Nat) (v : Byte) :
    Memory.read (Memory.write m a v) b = if b = a then v else Memory.read m b := by
  unfold Memory.write
  split
  · rename_i hv
    rw [Memory.read_erase, hv]
  · exact Memory.read_insert_erase m a b v

theorem Memory.wfFrom_relax {m : Memory} {lo hi : Nat} (hle : lo ≤ hi) (h : Memory.wfFrom hi m = true) :
    Memory.wfFrom lo m = true := by
  cases m with
  | nil => rfl
  | cons c m =>
    obtain ⟨x, w⟩ := c
    simp only [Memory.wfFrom, Bool.and_eq_true, decide_eq_true_eq] at h ⊢
    exact ⟨⟨⟨by omega, h.1.1.2⟩, h.1.2⟩, h.2⟩

theorem Memory.wfFrom_erase (m : Memory) (lo a : Nat) (h : Memory.wfFrom lo m = true) :
    Memory.wfFrom lo (Memory.erase m a) = true := by
  induction m generalizing lo with
  | nil => rfl
  | cons c m ih =>
    obtain ⟨x, w⟩ := c
    simp only [Memory.wfFrom, Bool.and_eq_true, decide_eq_true_eq] at h
    unfold Memory.erase
    split
    · exact Memory.wfFrom_relax (by omega) (ih (x + 1) h.2)
    · simp only [Memory.wfFrom, Bool.and_eq_true, decide_eq_true_eq]
      exact ⟨h.1, ih (x + 1) h.2⟩

theorem Memory.wfFrom_insert_erase (m : Memory) (lo a : Nat) (v : Byte) (hlo : lo ≤ a) (ha : a < Config.memSize)
    (hv : v ≠ Memory.unlisted) (h : Memory.wfFrom lo m = true) :
    Memory.wfFrom lo (Memory.insert (Memory.erase m a) a v) = true := by
  induction m generalizing lo with
  | nil =>
    simp only [Memory.erase, Memory.insert, Memory.wfFrom, Bool.and_eq_true, decide_eq_true_eq]
    exact ⟨⟨⟨hlo, ha⟩, hv⟩, trivial⟩
  | cons c m ih =>
    obtain ⟨x, w⟩ := c
    simp only [Memory.wfFrom, Bool.and_eq_true, decide_eq_true_eq] at h
    unfold Memory.erase
    split
    · exact ih lo hlo (Memory.wfFrom_relax (by omega) h.2)
    · rw [Memory.insert]
      split
      · simp only [Memory.wfFrom, Bool.and_eq_true, decide_eq_true_eq]
        exact ⟨⟨⟨hlo, ha⟩, hv⟩, ⟨⟨by omega, h.1.1.2⟩, h.1.2⟩, Memory.wfFrom_erase m (x + 1) a h.2⟩
      · simp only [Memory.wfFrom, Bool.and_eq_true, decide_eq_true_eq]
        exact ⟨h.1, ih (x + 1) (by omega) h.2⟩

/-- Writing a byte keeps the canonical form. -/
theorem Memory.wf_write {m : Memory} {a : Nat} (v : Byte) (ha : a < Config.memSize) (hw : Memory.wf m = true) :
    Memory.wf (Memory.write m a v) = true := by
  unfold Memory.wf Memory.write
  split
  · exact Memory.wfFrom_erase m 0 a hw
  · exact Memory.wfFrom_insert_erase m 0 a v (Nat.zero_le a) ha ‹_› hw

/-- Reset memory is in canonical form. -/
theorem State.reset_mem_wf : Memory.wf State.reset.mem = true := rfl

/-- All that `memRead` can do. -/
theorem State.memRead_spec (s : State) (a : Nat) :
    (a < 256 ∧ s.memRead a = .ok (Memory.read s.mem a)) ∨ (256 ≤ a ∧ s.memRead a = .error .outOfBounds) := by
  unfold State.memRead
  split
  · exact .inl ⟨‹_›, rfl⟩
  · exact .inr ⟨Nat.le_of_not_lt ‹_›, rfl⟩

/-- All that `memWrite` can do. -/
theorem State.memWrite_spec (s : State) (a v : Nat) :
    (a < 256 ∧ s.memWrite a v = .ok { s with mem := Memory.write s.mem a (BitVec.ofNat 8 v) }) ∨
      (256 ≤ a ∧ s.memWrite a v = .error .outOfBounds) := by
  unfold State.memWrite
  split
  · exact .inl ⟨‹_›, rfl⟩
  · exact .inr ⟨Nat.le_of_not_lt ‹_›, rfl⟩

theorem State.memWrite_wf {s t : State} {a v : Nat} (h : s.memWrite a v = .ok t) (hw : Memory.wf s.mem = true) :
    Memory.wf t.mem = true := by
  obtain ⟨ha, he⟩ | ⟨_, he⟩ := s.memWrite_spec a v
  · rw [he] at h; cases h; exact Memory.wf_write _ ha hw
  · rw [he] at h; cases h

/-- Placing bytes changes memory alone. -/
theorem State.placeBytes_fields (bs : List Byte) (s : State) (a : Nat) :
    (s.placeBytes a bs).regs = s.regs ∧ (s.placeBytes a bs).pc = s.pc ∧ (s.placeBytes a bs).halted = s.halted ∧
      (s.placeBytes a bs).fault = s.fault ∧ (s.placeBytes a bs).out = s.out := by
  induction bs generalizing s a with
  | nil => exact ⟨rfl, rfl, rfl, rfl, rfl⟩
  | cons b bs ih =>
    unfold State.placeBytes
    split
    · exact ih _ _
    · exact ⟨rfl, rfl, rfl, rfl, rfl⟩

/-- Placing bytes keeps the canonical form. -/
theorem State.placeBytes_wf (bs : List Byte) (s : State) (a : Nat) (hw : Memory.wf s.mem = true) :
    Memory.wf (s.placeBytes a bs).mem = true := by
  induction bs generalizing s a with
  | nil => exact hw
  | cons b bs ih =>
    unfold State.placeBytes
    split
    · exact ih _ _ (Memory.wf_write b ‹_› hw)
    · exact hw

end Sys2Proof.Machine
end

