-- ==== Sys2Proof/Laws/Operands.lean ====
section
/-! SUPPORT. One lemma per shared operation that says all it can do: register checks, the pc advance, the end of an
instruction, the ALU. -/

namespace Sys2Proof

theorem Reg.ofByte_code (r : Reg) : Reg.ofByte r.code = some r := by cases r <;> rfl

/-- A register byte names exactly the register whose code it is. -/
theorem Reg.ofByte_some {b : Byte} {r : Reg} (h : Reg.ofByte b = some r) : b = r.code := by
  revert h
  unfold Reg.ofByte
  repeat' split
  all_goals intro h; cases h
  all_goals assumption

theorem Reg.ofByte_none_iff (b : Byte) : Reg.ofByte b = none ↔ 8 ≤ b.toNat := by
  revert b; decide

theorem Reg.code_inj {r q : Reg} (h : r.code = q.code) : r = q := by
  have e := Reg.ofByte_code r
  rw [h, Reg.ofByte_code] at e
  exact (Option.some.inj e).symm

theorem Reg.code_lt (r : Reg) : r.code.toNat < 8 := by cases r <;> decide

end Sys2Proof

namespace Sys2Proof.Machine

/-- A computation that succeeds is one that succeeds at each stage. -/
theorem bind_ok_iff {α β : Type} {x : Except ErrorKind α} {f : α → Except ErrorKind β} {b : β} :
    (x >>= f) = .ok b ↔ ∃ a, x = .ok a ∧ f a = .ok b := by
  cases x <;> simp [bind, Except.bind]

/-- The error of a computation is that of the first stage that fails. -/
theorem bind_error_iff {α β : Type} {x : Except ErrorKind α} {f : α → Except ErrorKind β} {k : ErrorKind} :
    (x >>= f) = .error k ↔ x = .error k ∨ ∃ a, x = .ok a ∧ f a = .error k := by
  cases x <;> simp [bind, Except.bind]

@[simp] theorem ok_bind {α β : Type} (a : α) (f : α → Except ErrorKind β) : ((.ok a : Except ErrorKind α) >>= f) = f a := rfl
@[simp] theorem error_bind {α β : Type} (k : ErrorKind) (f : α → Except ErrorKind β) :
    ((.error k : Except ErrorKind α) >>= f) = .error k := rfl

/-- All that the end of an instruction can be: its writes, or one error with none of them. -/
theorem complete_spec (s : State) (ir : Byte) (r : Except ErrorKind State) :
    (∃ t, r = .ok t ∧ complete s ir r = .next t) ∨ (∃ k, r = .error k ∧ complete s ir r = .next (s.raise k ir)) := by
  cases r with
  | ok t => exact .inl ⟨t, rfl, rfl⟩
  | error k => exact .inr ⟨k, rfl, rfl⟩

/-- A register's own code passes the check. -/
theorem regCheck_code (r : Reg) : regCheck r.code = .ok r := by rw [regCheck, Reg.ofByte_code]

/-- A byte from 8 to 255 fails the check. -/
theorem regCheck_bad {b : Byte} (h : 8 ≤ b.toNat) : regCheck b = .error .invalidRegister := by
  rw [regCheck, (Reg.ofByte_none_iff b).2 h]

/-- All that the register check can do. -/
theorem regCheck_spec (b : Byte) :
    (∃ r : Reg, b = r.code ∧ regCheck b = .ok r) ∨ (8 ≤ b.toNat ∧ regCheck b = .error .invalidRegister) := by
  cases h : Reg.ofByte b with
  | some r => exact .inl ⟨r, Reg.ofByte_some h, by rw [regCheck, h]⟩
  | none => exact .inr ⟨(Reg.ofByte_none_iff b).1 h, by rw [regCheck, h]⟩

theorem nextPc_ok {s : State} {n : Nat} (h : s.pc.toNat + n ≤ 255) : nextPc s n = .ok (BitVec.ofNat 8 (s.pc.toNat + n)) :=
  if_neg (Nat.not_lt.2 h)

theorem nextPc_bad {s : State} {n : Nat} (h : 255 < s.pc.toNat + n) : nextPc s n = .error .outOfBounds := if_pos h

/-- All that the pc advance can do. -/
theorem nextPc_spec (s : State) (n : Nat) :
    (s.pc.toNat + n ≤ 255 ∧ nextPc s n = .ok (BitVec.ofNat 8 (s.pc.toNat + n))) ∨
      (255 < s.pc.toNat + n ∧ nextPc s n = .error .outOfBounds) := by
  by_cases h : 255 < s.pc.toNat + n
  · exact .inr ⟨h, nextPc_bad h⟩
  · exact .inl ⟨by omega, nextPc_ok (by omega)⟩

/-- All that the ALU group's shared step can do, for a selector whose result is `f`. -/
theorem aluStep_spec {sel : Byte} {d : AluDest} {f : Byte → Byte → Byte} (hsel : ∀ x y, alu sel x y = .ok (d, f x y))
    (a b : Byte) (s : State) :
    (∃ ra rb : Reg, a = ra.code ∧ b = rb.code ∧ s.pc.toNat + 3 ≤ 255 ∧
        aluStep sel a b s =
          .ok ((s.setReg (d.toReg ra) (f (s.reg ra) (s.reg rb))).setPc (BitVec.ofNat 8 (s.pc.toNat + 3)))) ∨
      ((8 ≤ a.toNat ∨ 8 ≤ b.toNat) ∧ aluStep sel a b s = .error .invalidRegister) ∨
      (a.toNat < 8 ∧ b.toNat < 8 ∧ 255 < s.pc.toNat + 3 ∧ aluStep sel a b s = .error .outOfBounds) := by
  unfold aluStep
  obtain ⟨ra, ha, ea⟩ | ⟨ha, ea⟩ := regCheck_spec a
  · obtain ⟨rb, hb, eb⟩ | ⟨hb, eb⟩ := regCheck_spec b
    · obtain ⟨hp, ep⟩ | ⟨hp, ep⟩ := nextPc_spec s 3
      · refine .inl ⟨ra, rb, ha, hb, hp, ?_⟩
        simp [ea, eb, ep, hsel, pure, Except.pure]
      · refine .inr (.inr ⟨ha ▸ ra.code_lt, hb ▸ rb.code_lt, hp, ?_⟩)
        simp [ea, eb, ep]
    · exact .inr (.inl ⟨.inr hb, by simp [ea, eb]⟩)
  · exact .inr (.inl ⟨.inl ha, by simp [ea]⟩)

/-- All that a jump, taken or not, can do. -/
theorem jumpIf_spec (taken : Bool) (b : Byte) (s : State) :
    (∃ r : Reg, b = r.code ∧ taken = true ∧ jumpIf taken b s = .ok (s.setPc (s.reg r))) ∨
      (∃ r : Reg, b = r.code ∧ taken = false ∧ s.pc.toNat + 2 ≤ 255 ∧
        jumpIf taken b s = .ok (s.setPc (BitVec.ofNat 8 (s.pc.toNat + 2)))) ∨
      (b.toNat < 8 ∧ taken = false ∧ 255 < s.pc.toNat + 2 ∧ jumpIf taken b s = .error .outOfBounds) ∨
      (8 ≤ b.toNat ∧ jumpIf taken b s = .error .invalidRegister) := by
  unfold jumpIf
  obtain ⟨r, hb, eb⟩ | ⟨hb, eb⟩ := regCheck_spec b
  · cases taken with
    | true => exact .inl ⟨r, hb, rfl, by simp [eb, pure, Except.pure]⟩
    | false =>
      obtain ⟨hp, ep⟩ | ⟨hp, ep⟩ := nextPc_spec s 2
      · exact .inr (.inl ⟨r, hb, rfl, hp, by simp [eb, ep, pure, Except.pure]⟩)
      · exact .inr (.inr (.inl ⟨hb ▸ r.code_lt, rfl, hp, by simp [eb, ep]⟩))
  · exact .inr (.inr (.inr ⟨hb, by simp [eb]⟩))

end Sys2Proof.Machine
end

