-- ==== Sys2Proof/Laws/PerInstr.lean ====
section
/-! SUPPORT. The family EncodingShape, one lemma per constructor of Instr: what an instruction's bytes look like. -/

namespace Sys2Proof.Laws.EncodingShape

/-- The bytes of an instruction begin with its opcode, the decoder's length for that opcode is their number, and bits 7:6 of
the opcode are the number of operand bytes (30_encoding.md R51, R58). -/
def Statement (i : Instr) : Prop :=
  (encode i).head? = some i.opcode ∧ (classify i.opcode).length = some i.length ∧ i.length = (encode i).length ∧
    i.opcode.toNat / 64 = i.operands.length

theorem ldi (reg imm : Byte) : Statement (.ldi reg imm) := ⟨rfl, by simp [Instr.opcode, Instr.length, Instr.operands, classify, InstrClass.length], Nat.add_comm _ _, by simp [Instr.opcode, Instr.operands]⟩
theorem prn (reg : Byte) : Statement (.prn reg) := ⟨rfl, by simp [Instr.opcode, Instr.length, Instr.operands, classify, InstrClass.length], Nat.add_comm _ _, by simp [Instr.opcode, Instr.operands]⟩
theorem hlt : Statement .hlt := ⟨rfl, by simp [Instr.opcode, Instr.length, Instr.operands, classify, InstrClass.length], Nat.add_comm _ _, by simp [Instr.opcode, Instr.operands]⟩
theorem push (reg : Byte) : Statement (.push reg) := ⟨rfl, by simp [Instr.opcode, Instr.length, Instr.operands, classify, InstrClass.length], Nat.add_comm _ _, by simp [Instr.opcode, Instr.operands]⟩
theorem pop (reg : Byte) : Statement (.pop reg) := ⟨rfl, by simp [Instr.opcode, Instr.length, Instr.operands, classify, InstrClass.length], Nat.add_comm _ _, by simp [Instr.opcode, Instr.operands]⟩
theorem jmp (reg : Byte) : Statement (.jmp reg) := ⟨rfl, by simp [Instr.opcode, Instr.length, Instr.operands, classify, InstrClass.length], Nat.add_comm _ _, by simp [Instr.opcode, Instr.operands]⟩
theorem jeq (reg : Byte) : Statement (.jeq reg) := ⟨rfl, by simp [Instr.opcode, Instr.length, Instr.operands, classify, InstrClass.length], Nat.add_comm _ _, by simp [Instr.opcode, Instr.operands]⟩
theorem jne (reg : Byte) : Statement (.jne reg) := ⟨rfl, by simp [Instr.opcode, Instr.length, Instr.operands, classify, InstrClass.length], Nat.add_comm _ _, by simp [Instr.opcode, Instr.operands]⟩
theorem add (regA regB : Byte) : Statement (.add regA regB) := ⟨rfl, by simp [Instr.opcode, Instr.length, Instr.operands, classify, isAlu, InstrClass.length], Nat.add_comm _ _, by simp [Instr.opcode, Instr.operands]⟩
theorem mul (regA regB : Byte) : Statement (.mul regA regB) := ⟨rfl, by simp [Instr.opcode, Instr.length, Instr.operands, classify, isAlu, InstrClass.length], Nat.add_comm _ _, by simp [Instr.opcode, Instr.operands]⟩
theorem cmp (regA regB : Byte) : Statement (.cmp regA regB) := ⟨rfl, by simp [Instr.opcode, Instr.length, Instr.operands, classify, isAlu, InstrClass.length], Nat.add_comm _ _, by simp [Instr.opcode, Instr.operands]⟩

end Sys2Proof.Laws.EncodingShape
end

