-- ==== Sys2Proof/Laws/Step.lean ====
section
/-! SUPPORT. What each instruction, the fetch and the step can do, said once: later proofs take these cases instead of
unfolding `exec` or `step`. -/

namespace Sys2Proof.Machine

/-- All that the fetch can do. -/
theorem fetch_spec (s : State) :
    (s.pc.toNat ≤ 253 ∧
        fetch s = .ok (s.ir, Memory.read s.mem (s.pc.toNat + 1), Memory.read s.mem (s.pc.toNat + 2))) ∨
      (254 ≤ s.pc.toNat ∧ fetch s = .error .outOfBounds) := by
  have h0 : s.memRead s.pc.toNat = .ok s.ir := by
    obtain ⟨_, e⟩ | ⟨h, _⟩ := s.memRead_spec s.pc.toNat
    · exact e
    · have := s.pc.isLt; omega
  unfold fetch
  obtain ⟨h2, e2⟩ | ⟨h2, e2⟩ := s.memRead_spec (s.pc.toNat + 2)
  · obtain ⟨_, e1⟩ | ⟨h1, _⟩ := s.memRead_spec (s.pc.toNat + 1)
    · exact .inl ⟨by omega, by simp [h0, e1, e2, pure, Except.pure]⟩
    · omega
  · obtain ⟨_, e1⟩ | ⟨h1, e1⟩ := s.memRead_spec (s.pc.toNat + 1)
    · exact .inr ⟨by omega, by simp [h0, e1, e2]⟩
    · exact .inr ⟨by omega, by simp [h0, e1]⟩

/-- The writes an instruction makes when none of its checks fails, as a next state. -/
def Effect (i : Instr) (s t : State) : Prop :=
  match i with
  | .ldi b v => ∃ r : Reg, b = r.code ∧ s.pc.toNat + 3 ≤ 255 ∧ t = (s.setReg r v).setPc (BitVec.ofNat 8 (s.pc.toNat + 3))
  | .prn b => ∃ r : Reg, b = r.code ∧ s.pc.toNat + 2 ≤ 255 ∧ t = (s.emit (s.reg r)).setPc (BitVec.ofNat 8 (s.pc.toNat + 2))
  | .hlt => t = s.halt
  | .push b => ∃ r : Reg, b = r.code ∧ s.pc.toNat + 2 ≤ 255 ∧
      t = { s.decSp with
            mem := Memory.write s.mem (s.reg .sp + 255).toNat (s.decSp.reg r), pc := BitVec.ofNat 8 (s.pc.toNat + 2) }
  | .pop b => ∃ r : Reg, b = r.code ∧ s.pc.toNat + 2 ≤ 255 ∧
      t = ((s.setReg r (Memory.read s.mem (s.reg .sp).toNat)).incSp).setPc (BitVec.ofNat 8 (s.pc.toNat + 2))
  | .jmp b => ∃ r : Reg, b = r.code ∧ t = s.setPc (s.reg r)
  | .jeq b => ∃ r : Reg, b = r.code ∧
      ((s.flagsEqual = true ∧ t = s.setPc (s.reg r)) ∨
        (s.flagsEqual = false ∧ s.pc.toNat + 2 ≤ 255 ∧ t = s.setPc (BitVec.ofNat 8 (s.pc.toNat + 2))))
  | .jne b => ∃ r : Reg, b = r.code ∧
      ((s.flagsEqual = false ∧ t = s.setPc (s.reg r)) ∨
        (s.flagsEqual = true ∧ s.pc.toNat + 2 ≤ 255 ∧ t = s.setPc (BitVec.ofNat 8 (s.pc.toNat + 2))))
  | .add a b => ∃ ra rb : Reg, a = ra.code ∧ b = rb.code ∧ s.pc.toNat + 3 ≤ 255 ∧
      t = (s.setReg ra (BitVec.ofNat 8 ((s.reg ra).toNat + (s.reg rb).toNat))).setPc (BitVec.ofNat 8 (s.pc.toNat + 3))
  | .mul a b => ∃ ra rb : Reg, a = ra.code ∧ b = rb.code ∧ s.pc.toNat + 3 ≤ 255 ∧
      t = (s.setReg ra (BitVec.ofNat 8 ((s.reg ra).toNat * (s.reg rb).toNat))).setPc (BitVec.ofNat 8 (s.pc.toNat + 3))
  | .cmp a b => ∃ ra rb : Reg, a = ra.code ∧ b = rb.code ∧ s.pc.toNat + 3 ≤ 255 ∧
      t = (s.setReg .fl (compareFlags (s.reg ra) (s.reg rb))).setPc (BitVec.ofNat 8 (s.pc.toNat + 3))

/-- The register operand bytes of an instruction. -/
def regOperands : Instr → List Byte
  | .ldi b _ | .prn b | .push b | .pop b | .jmp b | .jeq b | .jne b => [b]
  | .hlt => []
  | .add a b | .mul a b | .cmp a b => [a, b]

/-- All that an instruction can answer: its effect, or one of two errors raised with none of it. -/
def Outcomes (i : Instr) (s : State) (o : Answer) : Prop :=
  (∃ t, o = .next t ∧ Effect i s t) ∨
    (o = .next (s.raise .invalidRegister i.opcode) ∧ ∃ b ∈ regOperands i, 8 ≤ b.toNat) ∨
    (o = .next (s.raise .outOfBounds i.opcode) ∧ (∀ b ∈ regOperands i, b.toNat < 8) ∧ 255 < s.pc.toNat + i.length)

theorem execLdi_spec (b v : Byte) (s : State) : Outcomes (.ldi b v) s (execLdi b v s) := by
  unfold execLdi
  obtain ⟨r, hb, eb⟩ | ⟨hb, eb⟩ := regCheck_spec b
  · obtain ⟨hp, ep⟩ | ⟨hp, ep⟩ := nextPc_spec s 3
    · exact .inl ⟨_, by rw [eb, ok_bind, ep, ok_bind]; rfl, r, hb, hp, rfl⟩
    · exact .inr (.inr ⟨by rw [eb, ok_bind, ep]; rfl, by simpa [regOperands, hb] using r.code_lt, hp⟩)
  · exact .inr (.inl ⟨by rw [eb]; rfl, by simpa [regOperands] using hb⟩)

theorem execPrn_spec (b : Byte) (s : State) : Outcomes (.prn b) s (execPrn b s) := by
  unfold execPrn
  obtain ⟨r, hb, eb⟩ | ⟨hb, eb⟩ := regCheck_spec b
  · obtain ⟨hp, ep⟩ | ⟨hp, ep⟩ := nextPc_spec s 2
    · exact .inl ⟨_, by rw [eb, ok_bind, ep, ok_bind]; rfl, r, hb, hp, rfl⟩
    · exact .inr (.inr ⟨by rw [eb, ok_bind, ep]; rfl, by simpa [regOperands, hb] using r.code_lt, hp⟩)
  · exact .inr (.inl ⟨by rw [eb]; rfl, by simpa [regOperands] using hb⟩)

theorem execHlt_spec (s : State) : Outcomes .hlt s (execHlt s) := .inl ⟨_, rfl, rfl⟩

/-- PUSH's store never fails: its address is a byte (20_memory.md R32). -/
theorem push_store (s : State) (r : Reg) :
    s.decSp.memWrite (s.decSp.reg .sp).toNat (s.decSp.reg r).toNat =
      .ok { s.decSp with mem := Memory.write s.mem (s.reg .sp + 255).toNat (s.decSp.reg r) } := by
  obtain ⟨_, e⟩ | ⟨h, _⟩ := s.decSp.memWrite_spec (s.decSp.reg .sp).toNat (s.decSp.reg r).toNat
  · rw [e, BitVec.ofNat_toNat, BitVec.setWidth_eq]
    simp
  · have := (s.decSp.reg .sp).isLt; omega

theorem execPush_spec (b : Byte) (s : State) : Outcomes (.push b) s (execPush b s) := by
  unfold execPush
  obtain ⟨r, hb, eb⟩ | ⟨hb, eb⟩ := regCheck_spec b
  · obtain ⟨hp, ep⟩ | ⟨hp, ep⟩ := nextPc_spec s 2
    · exact .inl ⟨_, by rw [eb, ok_bind, ep, ok_bind, push_store, ok_bind]; rfl, r, hb, hp, rfl⟩
    · exact .inr (.inr ⟨by rw [eb, ok_bind, ep]; rfl, by simpa [regOperands, hb] using r.code_lt, hp⟩)
  · exact .inr (.inl ⟨by rw [eb]; rfl, by simpa [regOperands] using hb⟩)

/-- POP's load never fails: its address is a byte (20_memory.md R33). -/
theorem pop_load (s : State) : s.memRead (s.reg .sp).toNat = .ok (Memory.read s.mem (s.reg .sp).toNat) := by
  obtain ⟨_, e⟩ | ⟨h, _⟩ := s.memRead_spec (s.reg .sp).toNat
  · exact e
  · have := (s.reg .sp).isLt; omega

theorem execPop_spec (b : Byte) (s : State) : Outcomes (.pop b) s (execPop b s) := by
  unfold execPop
  obtain ⟨r, hb, eb⟩ | ⟨hb, eb⟩ := regCheck_spec b
  · obtain ⟨hp, ep⟩ | ⟨hp, ep⟩ := nextPc_spec s 2
    · exact .inl ⟨_, by rw [eb, ok_bind, ep, ok_bind, pop_load, ok_bind]; rfl, r, hb, hp, rfl⟩
    · exact .inr (.inr ⟨by rw [eb, ok_bind, ep]; rfl, by simpa [regOperands, hb] using r.code_lt, hp⟩)
  · exact .inr (.inl ⟨by rw [eb]; rfl, by simpa [regOperands] using hb⟩)

theorem execJmp_spec (b : Byte) (s : State) : Outcomes (.jmp b) s (execJmp b s) := by
  unfold execJmp
  obtain ⟨r, hb, eb⟩ | ⟨hb, eb⟩ := regCheck_spec b
  · exact .inl ⟨_, by rw [eb, ok_bind]; rfl, r, hb, rfl⟩
  · exact .inr (.inl ⟨by rw [eb]; rfl, by simpa [regOperands] using hb⟩)

theorem execJeq_spec (b : Byte) (s : State) : Outcomes (.jeq b) s (execJeq b s) := by
  unfold execJeq
  obtain ⟨r, hb, ht, e⟩ | ⟨r, hb, ht, hp, e⟩ | ⟨hb, ht, hp, e⟩ | ⟨hb, e⟩ := jumpIf_spec s.flagsEqual b s
  · exact .inl ⟨_, by rw [e]; rfl, r, hb, .inl ⟨ht, rfl⟩⟩
  · exact .inl ⟨_, by rw [e]; rfl, r, hb, .inr ⟨ht, hp, rfl⟩⟩
  · exact .inr (.inr ⟨by rw [e]; rfl, by simpa [regOperands] using hb, hp⟩)
  · exact .inr (.inl ⟨by rw [e]; rfl, by simpa [regOperands] using hb⟩)

theorem execJne_spec (b : Byte) (s : State) : Outcomes (.jne b) s (execJne b s) := by
  unfold execJne
  obtain ⟨r, hb, ht, e⟩ | ⟨r, hb, ht, hp, e⟩ | ⟨hb, ht, hp, e⟩ | ⟨hb, e⟩ := jumpIf_spec (!s.flagsEqual) b s
  · exact .inl ⟨_, by rw [e]; rfl, r, hb, .inl ⟨by simpa using ht, rfl⟩⟩
  · exact .inl ⟨_, by rw [e]; rfl, r, hb, .inr ⟨by simpa using ht, hp, rfl⟩⟩
  · exact .inr (.inr ⟨by rw [e]; rfl, by simpa [regOperands] using hb, hp⟩)
  · exact .inr (.inl ⟨by rw [e]; rfl, by simpa [regOperands] using hb⟩)

theorem execAdd_spec (a b : Byte) (s : State) : Outcomes (.add a b) s (execAdd a b s) := by
  unfold execAdd
  obtain ⟨ra, rb, ha, hb, hp, e⟩ | ⟨hb, e⟩ | ⟨ha, hb, hp, e⟩ :=
    aluStep_spec (sel := Opcode.add) (d := .regA) (f := fun x y => BitVec.ofNat 8 (x.toNat + y.toNat)) (fun _ _ => rfl) a b s
  · exact .inl ⟨_, by rw [e]; rfl, ra, rb, ha, hb, hp, rfl⟩
  · exact .inr (.inl ⟨by rw [e]; rfl, by simpa [regOperands] using hb⟩)
  · exact .inr (.inr ⟨by rw [e]; rfl, by simpa [regOperands] using ⟨ha, hb⟩, hp⟩)

theorem execMul_spec (a b : Byte) (s : State) : Outcomes (.mul a b) s (execMul a b s) := by
  unfold execMul
  obtain ⟨ra, rb, ha, hb, hp, e⟩ | ⟨hb, e⟩ | ⟨ha, hb, hp, e⟩ :=
    aluStep_spec (sel := Opcode.mul) (d := .regA) (f := fun x y => BitVec.ofNat 8 (x.toNat * y.toNat)) (fun _ _ => rfl) a b s
  · exact .inl ⟨_, by rw [e]; rfl, ra, rb, ha, hb, hp, rfl⟩
  · exact .inr (.inl ⟨by rw [e]; rfl, by simpa [regOperands] using hb⟩)
  · exact .inr (.inr ⟨by rw [e]; rfl, by simpa [regOperands] using ⟨ha, hb⟩, hp⟩)

theorem execCmp_spec (a b : Byte) (s : State) : Outcomes (.cmp a b) s (execCmp a b s) := by
  unfold execCmp
  obtain ⟨ra, rb, ha, hb, hp, e⟩ | ⟨hb, e⟩ | ⟨ha, hb, hp, e⟩ :=
    aluStep_spec (sel := Opcode.cmp) (d := .flags) (f := compareFlags) (fun _ _ => rfl) a b s
  · exact .inl ⟨_, by rw [e]; rfl, ra, rb, ha, hb, hp, rfl⟩
  · exact .inr (.inl ⟨by rw [e]; rfl, by simpa [regOperands] using hb⟩)
  · exact .inr (.inr ⟨by rw [e]; rfl, by simpa [regOperands] using ⟨ha, hb⟩, hp⟩)

/-- All that `exec` can answer. -/
theorem exec_spec (i : Instr) (s : State) : Outcomes i s (exec i s) := by
  cases i with
  | ldi b v => exact execLdi_spec b v s
  | prn b => exact execPrn_spec b s
  | hlt => exact execHlt_spec s
  | push b => exact execPush_spec b s
  | pop b => exact execPop_spec b s
  | jmp b => exact execJmp_spec b s
  | jeq b => exact execJeq_spec b s
  | jne b => exact execJne_spec b s
  | add a b => exact execAdd_spec a b s
  | mul a b => exact execMul_spec a b s
  | cmp a b => exact execCmp_spec a b s

/-- The converse of `exec_spec`'s first case: where an effect is possible, `exec` answers it. -/
theorem exec_of_effect {i : Instr} {s t : State} (h : Effect i s t) : exec i s = .next t := by
  cases i with
  | ldi b v =>
    obtain ⟨r, rfl, hp, rfl⟩ := h
    simp [exec, execLdi, regCheck_code, nextPc_ok hp, complete, pure, Except.pure]
  | prn b =>
    obtain ⟨r, rfl, hp, rfl⟩ := h
    simp [exec, execPrn, regCheck_code, nextPc_ok hp, complete, pure, Except.pure]
  | hlt => exact congrArg _ h.symm
  | push b =>
    obtain ⟨r, rfl, hp, rfl⟩ := h
    simp only [exec, execPush, regCheck_code, ok_bind, nextPc_ok hp, push_store]
    rfl
  | pop b =>
    obtain ⟨r, rfl, hp, rfl⟩ := h
    simp only [exec, execPop, regCheck_code, ok_bind, nextPc_ok hp, pop_load]
    rfl
  | jmp b =>
    obtain ⟨r, rfl, rfl⟩ := h
    simp [exec, execJmp, regCheck_code, complete, pure, Except.pure]
  | jeq b =>
    obtain ⟨r, rfl, ⟨hf, rfl⟩ | ⟨hf, hp, rfl⟩⟩ := h
    · simp [exec, execJeq, jumpIf, hf, regCheck_code, complete, pure, Except.pure]
    · simp [exec, execJeq, jumpIf, hf, nextPc_ok hp, regCheck_code, complete, pure, Except.pure]
  | jne b =>
    obtain ⟨r, rfl, ⟨hf, rfl⟩ | ⟨hf, hp, rfl⟩⟩ := h
    · simp [exec, execJne, jumpIf, hf, regCheck_code, complete, pure, Except.pure]
    · simp [exec, execJne, jumpIf, hf, nextPc_ok hp, regCheck_code, complete, pure, Except.pure]
  | add a b =>
    obtain ⟨ra, rb, rfl, rfl, hp, rfl⟩ := h
    simp [exec, execAdd, aluStep, alu, AluDest.toReg, regCheck_code, nextPc_ok hp, complete, pure, Except.pure]
  | mul a b =>
    obtain ⟨ra, rb, rfl, rfl, hp, rfl⟩ := h
    simp [exec, execMul, aluStep, alu, AluDest.toReg, regCheck_code, nextPc_ok hp, complete, pure, Except.pure]
  | cmp a b =>
    obtain ⟨ra, rb, rfl, rfl, hp, rfl⟩ := h
    simp [exec, execCmp, aluStep, alu, AluDest.toReg, regCheck_code, nextPc_ok hp, complete, pure, Except.pure]

/-- All that a step can do. -/
theorem step_spec (s : State) :
    (s.fault.isSome = true ∧ step s = .fault .faulted) ∨
      (s.fault = none ∧ s.halted = true ∧ step s = .fault .halted) ∨
      (s.fault = none ∧ s.halted = false ∧ 254 ≤ s.pc.toNat ∧ step s = .next (s.raise .outOfBounds s.ir)) ∨
      (s.fault = none ∧ s.halted = false ∧ s.pc.toNat ≤ 253 ∧
        ((∃ i, decode s.ir (Memory.read s.mem (s.pc.toNat + 1)) (Memory.read s.mem (s.pc.toNat + 2)) = .ok i ∧
            step s = exec i s) ∨
          (∃ k, decode s.ir (Memory.read s.mem (s.pc.toNat + 1)) (Memory.read s.mem (s.pc.toNat + 2)) = .error k ∧
            step s = .next (s.raise k s.ir)))) := by
  unfold step front State.runState
  cases hf : s.fault with
  | some f => exact .inl ⟨rfl, by simp⟩
  | none =>
    cases hh : s.halted with
    | true => exact .inr (.inl ⟨rfl, rfl, by simp⟩)
    | false =>
      obtain ⟨hp, e⟩ | ⟨hp, e⟩ := fetch_spec s
      · refine .inr (.inr (.inr ⟨rfl, rfl, hp, ?_⟩))
        cases hd : decode s.ir (Memory.read s.mem (s.pc.toNat + 1)) (Memory.read s.mem (s.pc.toNat + 2)) with
        | ok i => exact .inl ⟨i, rfl, by simp [fetchDecode, e, hd]⟩
        | error k => exact .inr ⟨k, rfl, by simp [fetchDecode, e, hd]⟩
      · exact .inr (.inr (.inl ⟨rfl, rfl, hp, by simp [fetchDecode, e]⟩))

end Sys2Proof.Machine
end

