-- ==== Sys2Proof/Tests/Slice0.lean ====
section
/-! SUPPORT. The model's own tests. Expected values are those of 95_test_vectors.md (the vector is named at each test) or
worked out by hand from the cited rule. Names that begin `witness_` show that the hypotheses of a statement are met. -/

namespace Sys2Proof.Tests

open Sys2Proof Sys2Proof.Machine

/-- The next state of an answer. -/
def after : Answer → Option State
  | .next t => some t
  | _ => none

/-- The reset state with the program counter moved and bytes placed there. -/
def at_ (pc : Byte) (bytes : List Byte) : State := (State.reset.setPc pc).placeBytes pc.toNat bytes

/-- A state with one more register set. -/
def put (s : State) (r : Reg) (v : Byte) : State := s.setReg r v

/-! ## Well-formedness: one ill-formed term for each check -/

theorem test_wf_bound : isRegByte 7 = true ∧ isRegByte 8 = false ∧ isRegByte 255 = false := by decide
theorem test_illformed_one_operand :
    (Instr.ldi 8 0).wellFormed = false ∧ (Instr.prn 8).wellFormed = false ∧ (Instr.push 9).wellFormed = false ∧
      (Instr.pop 255).wellFormed = false ∧ (Instr.jmp 8).wellFormed = false ∧ (Instr.jeq 8).wellFormed = false ∧
      (Instr.jne 200).wellFormed = false := by decide
theorem test_illformed_two_operands :
    (Instr.add 8 0).wellFormed = false ∧ (Instr.add 0 8).wellFormed = false ∧ (Instr.mul 8 0).wellFormed = false ∧
      (Instr.mul 0 8).wellFormed = false ∧ (Instr.cmp 8 0).wellFormed = false ∧ (Instr.cmp 0 8).wellFormed = false := by decide
theorem test_wellformed :
    (Instr.ldi 7 255).wellFormed = true ∧ Instr.hlt.wellFormed = true ∧ (Instr.cmp 7 7).wellFormed = true := by decide

/-! ## Decoding: a word of every instruction, written out bit by bit from 30_encoding.md R50 and R53 -/

theorem test_decode_ldi : decode 0b10000010 0b00000011 0b00101010 = .ok (.ldi 3 42) := by decide
theorem test_decode_prn : decode 0b01000111 0b00000000 0b11101110 = .ok (.prn 0) := by decide
theorem test_decode_hlt : decode 0b00000001 0b11111111 0b11111111 = .ok .hlt := by decide
theorem test_decode_push : decode 0b01000101 0b00000111 0b00000000 = .ok (.push 7) := by decide
theorem test_decode_pop : decode 0b01000110 0b00000110 0b00000000 = .ok (.pop 6) := by decide
theorem test_decode_jmp : decode 0b01010100 0b00000100 0b00000000 = .ok (.jmp 4) := by decide
theorem test_decode_jeq : decode 0b01010101 0b00000010 0b00000000 = .ok (.jeq 2) := by decide
theorem test_decode_jne : decode 0b01010110 0b11001000 0b00000000 = .ok (.jne 200) := by decide
theorem test_decode_add : decode 0b10100000 0b00000010 0b00000000 = .ok (.add 2 0) := by decide
theorem test_decode_mul : decode 0b10100010 0b00000000 0b00000001 = .ok (.mul 0 1) := by decide
theorem test_decode_cmp : decode 0b10100111 0b00000110 0b00000000 = .ok (.cmp 6 0) := by decide

/-- DEC12 to DEC17, DEC22. -/
theorem test_decode_unknown :
    [0x00, 0x02, 0x83, 0x44, 0x57, 0xDF, 0x80].all (fun b => decide (classify b = .unknownInstruction)) = true := by decide
/-- DEC18 to DEC21. -/
theorem test_decode_unsupported :
    [0x20, 0xA1, 0xA3, 0xA6, 0xB0, 0x21, 0x65, 0x75, 0xFF].all (fun b => decide (classify b = .unsupportedAluOperation)) = true := by
  decide
/-- A table word: first byte in bits 7 to 0, next in bits 15 to 8, then 23 to 16 (L1, P1, J1). -/
theorem test_table_words :
    decodeTableWord 24 0x2A0382 = some (.ldi 3 0x2A) ∧ decodeTableWord 16 0x0547 = some (.prn 5) ∧
      decodeTableWord 8 0x01 = some .hlt ∧ decodeTableWord 8 0x00 = none ∧
      decodeTableWord 24 0x0100A2 = some (.mul 0 1) := by decide
/-- A short window is `OutOfBounds` before classification (40_step_loop.md R72). -/
theorem test_decode_short : decodeBytes [0xFF, 0x00] = .error .outOfBounds := by decide
/-- 60_exceptions.md R109. -/
theorem test_codes :
    State.reset.faultCode = 0 ∧ ErrorKind.code .outOfBounds = 1 ∧ ErrorKind.code .invalidRegister = 2 ∧
      ErrorKind.code .unknownInstruction = 3 ∧ ErrorKind.code .unsupportedAluOperation = 4 := by decide
/-- 30_encoding.md R60. -/
theorem test_text : (Instr.ldi 0 8).text = "LDI R0,8" ∧ (Instr.mul 0 1).text = "MUL R0,R1" := by decide

/-! ## Placing one instruction at the fetch, as the host asks -/

theorem test_withFetchWord_ldi :
    (after (step (State.reset.withFetchWord 24 0x2A0382))).map (fun t => (t.reg .r3, t.pc)) = some (0x2A, 3) := by decide
theorem test_withFetchWord_hlt :
    (after (step (State.reset.withFetchWord 8 0x01))).map (fun t => (t.halted, t.pc)) = some (true, 0) := by decide

/-! ## Vectors of 95_test_vectors.md, one step each -/

/-- L1. -/
theorem test_ldi_L1 : (after (step (at_ 0 [0x82, 0x03, 0x2A]))).map (fun t => (t.reg .r3, t.pc)) = some (0x2A, 3) := by decide
/-- L6. -/
theorem test_ldi_L6 : (after (step (at_ 0 [0x82, 0x08, 0x05]))).map (fun t => (t.fault, t.regs)) =
    some (some ⟨.invalidRegister, 0, 0x82⟩, State.reset.regs) := by decide
/-- P1. -/
theorem test_prn_P1 : (after (step (put (at_ 9 [0x47, 0x00]) .r0 72))).map (fun t => (t.out, t.pc)) = some ([72], 11) := by decide
/-- P2. -/
theorem test_prn_P2 : (after (step (at_ 0 [0x47, 0x07]))).map (fun t => (t.out, t.pc)) = some ([244], 2) := by decide
/-- K5. -/
theorem test_push_K5 : (after (step (at_ 0 [0x45, 0x07]))).map (fun t => (t.reg .r7, Memory.read t.mem 0xF3, t.pc)) =
    some (0xF3, 0xF3, 2) := by decide
/-- K9: PUSH over its own operand byte. -/
theorem test_push_K9 : (after (step (put (put (at_ 0 [0x45, 0x00]) .r7 2) .r0 1))).map (fun t => (t.mem, t.reg .r7)) =
    some ([(0, 0x45), (1, 0x01)], 1) := by decide
/-- K4. -/
theorem test_pop_K4 : (after (step (put ((at_ 16 [0x46, 0x01]).placeBytes 255 [0x99]) .r7 0xFF))).map
    (fun t => (t.reg .r1, t.reg .r7, t.pc)) = some (0x99, 0x00, 18) := by decide
/-- K6. -/
theorem test_pop_K6 : (after (step (put ((at_ 0 [0x46, 0x07]).placeBytes 0xF3 [0x10]) .r7 0xF3))).map
    (fun t => (t.reg .r7, t.pc)) = some (0x11, 2) := by decide
/-- J2. -/
theorem test_hlt_J2 : (after (step (at_ 253 [0x01]))).map (fun t => (t.halted, t.pc)) = some (true, 253) := by decide
/-- J3. -/
theorem test_hlt_J3 : (after (step (at_ 254 [0x01]))).map (fun t => (t.halted, t.fault)) =
    some (false, some ⟨.outOfBounds, 254, 0x01⟩) := by decide
/-- J5. -/
theorem test_jmp_J5 : (after (step (put (at_ 24 [0x54, 0x04]) .r4 15))).map State.pc = some 15 := by decide
/-- J8. -/
theorem test_jmp_J8 : (after (step (at_ 0 [0x54, 0x08]))).map State.fault = some (some ⟨.invalidRegister, 0, 0x54⟩) := by decide
/-- J13. -/
theorem test_jeq_J13 : (after (step (put (at_ 9 [0x55, 0x06]) .r6 1))).map State.pc = some 1 := by decide
/-- J14. -/
theorem test_jeq_J14 : (after (step (put (at_ 9 [0x55, 0x08]) .r6 4))).map State.fault =
    some (some ⟨.invalidRegister, 9, 0x55⟩) := by decide
/-- J16. -/
theorem test_jne_J16 : (after (step (put (put (at_ 24 [0x56, 0x04]) .r6 1) .r4 15))).map State.pc = some 26 := by decide
/-- J18. -/
theorem test_jne_J18 : (after (step (put (put (at_ 24 [0x56, 0x04]) .r6 3) .r4 15))).map State.pc = some 15 := by decide
/-- A1. -/
theorem test_add_A1 : (after (step (put (put (at_ 15 [0xA0, 0x02, 0x00]) .r2 200) .r0 100))).map
    (fun t => (t.reg .r2, t.reg .r0, t.reg .r6, t.pc)) = some (44, 100, 0, 18) := by decide
/-- A3. -/
theorem test_add_A3 : (after (step (put (at_ 0 [0xA0, 0x00, 0x00]) .r0 0x80))).map (fun t => t.reg .r0) = some 0 := by decide
/-- A10. -/
theorem test_mul_A10 : (after (step (put (put (at_ 0 [0xA2, 0x00, 0x01]) .r0 255) .r1 255))).map
    (fun t => (t.reg .r0, t.reg .r1)) = some (1, 255) := by decide
/-- A12. -/
theorem test_mul_A12 : (after (step (put (at_ 0 [0xA2, 0x03, 0x03]) .r3 0x11))).map (fun t => t.reg .r3) = some 0x21 := by decide
/-- A17: the comparison is unsigned. -/
theorem test_cmp_A17 : (after (step (put (put (at_ 0 [0xA7, 0x00, 0x01]) .r0 0x80) .r1 0x7F))).map (fun t => t.reg .r6) =
    some 0x02 := by decide
/-- A21: old R6 compared, then overwritten. -/
theorem test_cmp_A21 : (after (step (put (put (at_ 0 [0xA7, 0x06, 0x00]) .r6 2) .r0 4))).map (fun t => t.reg .r6) =
    some 0x04 := by decide
/-- S1. -/
theorem test_step_S1 : after (step State.reset) = some { State.reset with fault := some ⟨.unknownInstruction, 0, 0x00⟩ } := by decide
/-- S5. -/
theorem test_step_S5 : (after (step (at_ 0 [0xA1, 9, 9]))).map State.fault =
    some (some ⟨.unsupportedAluOperation, 0, 0xA1⟩) := by decide
/-- S6. -/
theorem test_step_S6 : (after (step (at_ 254 [0xFF]))).map State.fault = some (some ⟨.outOfBounds, 254, 0xFF⟩) := by decide
/-- S13 and L7: the register check comes before the pc bound. -/
theorem test_step_S13 : (after (step (at_ 253 [0x82, 0x08, 0x00]))).map State.fault =
    some (some ⟨.invalidRegister, 253, 0x82⟩) := by decide
/-- Z3. -/
theorem test_launch_Z3 : (State.launch [0x01]).map (fun s => (s.mem, s.pc)) = some ([(0, 0x01)], 0) := by decide

/-! ## Witnesses: each clause of each statement has its hypotheses met, at a boundary value where there is one -/

/-- L4, L7, L5: pc = 252 completes; a bad register at pc = 253; a good one at pc = 253. -/
theorem witness_LdiLoadsImmediate :
    (at_ 252 []).pc.toNat ≤ 252 ∧ 8 ≤ (8 : Byte).toNat ∧ 253 ≤ (at_ 253 []).pc.toNat ∧
      (after (exec (.ldi Reg.r0.code 0xFF) (at_ 252 []))).map (fun t => (t.reg .r0, t.pc)) = some (0xFF, 255) ∧
      (after (exec (.ldi 0xFF 5) (at_ 253 []))).map State.fault = some (some ⟨.invalidRegister, 253, 0x82⟩) ∧
      (after (exec (.ldi Reg.r0.code 0xFF) (at_ 253 []))).map State.fault = some (some ⟨.outOfBounds, 253, 0x82⟩) := by decide
theorem witness_PrnEmitsRegister :
    (at_ 253 []).pc.toNat ≤ 253 ∧ 8 ≤ (8 : Byte).toNat ∧
      (after (exec (.prn Reg.r7.code) (at_ 253 []))).map (fun t => (t.out, t.pc)) = some ([244], 255) ∧
      (after (exec (.prn 8) (at_ 0 []))).map State.out = some [] := by decide
/-- J4, and HLT as the instruction that sets `halted`. -/
theorem witness_HltHalts :
    (at_ 255 [0x01]).Running ∧ 254 ≤ (at_ 255 [0x01]).pc.toNat ∧ Memory.read (at_ 255 [0x01]).mem 255 = 0x01 ∧
      (after (step (at_ 255 [0x01]))).map State.fault = some (some ⟨.outOfBounds, 255, 0x01⟩) ∧
      State.reset.halted = false ∧ (after (exec .hlt State.reset)).map State.halted = some true := by decide
/-- K3 (R7 = 0 wraps) at pc = 253, K5 (the register is R7), K7 (a bad register). -/
theorem witness_PushStoresBelowStackPointer :
    (at_ 253 []).pc.toNat ≤ 253 ∧ 8 ≤ (9 : Byte).toNat ∧
      (after (exec (.push Reg.r1.code) (put (put (at_ 253 []) .r7 0) .r1 0x77))).map
        (fun t => (t.reg .r7, Memory.read t.mem 255)) = some (0xFF, 0x77) ∧
      (after (exec (.push Reg.r7.code) State.reset)).map (fun t => Memory.read t.mem 0xF3) = some 0xF3 ∧
      (after (exec (.push 9) State.reset)).map (fun t => (t.reg .r7, t.mem)) = some (0xF4, []) := by decide
/-- K4 (R7 = 255 wraps) at pc = 253, K6 (the register is R7), a bad register. -/
theorem witness_PopLoadsFromStackPointer :
    (at_ 253 []).pc.toNat ≤ 253 ∧ Reg.r1 ≠ Reg.r7 ∧ 8 ≤ (8 : Byte).toNat ∧
      (after (exec (.pop Reg.r1.code) (put ((at_ 253 []).placeBytes 255 [0x99]) .r7 0xFF))).map
        (fun t => (t.reg .r1, t.reg .r7)) = some (0x99, 0) ∧
      (after (exec (.pop Reg.r7.code) (put (State.reset.placeBytes 0xF3 [0x10]) .r7 0xF3))).map (fun t => t.reg .r7) = some 0x11 ∧
      (after (exec (.pop 8) State.reset)).map (fun t => t.reg .r7) = some 0xF4 := by decide
/-- J7: a target of 254. -/
theorem witness_JmpSetsProgramCounter :
    (put State.reset .r0 254).Running ∧ 254 ≤ ((put State.reset .r0 254).reg .r0).toNat ∧ 8 ≤ (8 : Byte).toNat ∧
      (after (exec (.jmp Reg.r0.code) (put State.reset .r0 254))).map State.pc = some 254 := by decide
/-- J13, J12 at pc = 253, J14. -/
theorem witness_JeqJumpsOnEqual :
    (put State.reset .r6 1).reg .r6 = 0x01 ∧ (put (at_ 253 []) .r6 3).reg .r6 ≠ 0x01 ∧ (at_ 253 []).pc.toNat ≤ 253 ∧
      8 ≤ (8 : Byte).toNat ∧ (after (exec (.jeq Reg.r6.code) (put State.reset .r6 1))).map State.pc = some 1 ∧
      (after (exec (.jeq Reg.r2.code) (put (at_ 253 []) .r6 3))).map State.pc = some 255 := by decide
/-- J17, J16 at pc = 253, J19. -/
theorem witness_JneJumpsOnNotEqual :
    (put State.reset .r4 15).reg .r6 ≠ 0x01 ∧ (put (at_ 253 []) .r6 1).reg .r6 = 0x01 ∧ (at_ 253 []).pc.toNat ≤ 253 ∧
      8 ≤ (0xC8 : Byte).toNat ∧ (after (exec (.jne Reg.r4.code) (put State.reset .r4 15))).map State.pc = some 15 ∧
      (after (exec (.jne Reg.r4.code) (put (at_ 253 []) .r6 1))).map State.pc = some 255 := by decide
/-- A24 (pc = 252), A6, A7, and pc = 253. -/
theorem witness_AddIsModulo256 :
    (at_ 252 []).pc.toNat ≤ 252 ∧ (8 ≤ (0 : Byte).toNat ∨ 8 ≤ (8 : Byte).toNat) ∧ (8 ≤ (8 : Byte).toNat ∨ 8 ≤ (0 : Byte).toNat) ∧
      253 ≤ (at_ 253 []).pc.toNat ∧
      (after (exec (.add Reg.r0.code Reg.r1.code) (put (put (at_ 252 []) .r0 1) .r1 1))).map (fun t => (t.reg .r0, t.pc)) =
        some (2, 255) := by decide
theorem witness_MulIsModulo256 :
    (at_ 252 []).pc.toNat ≤ 252 ∧ (8 ≤ (0 : Byte).toNat ∨ 8 ≤ (8 : Byte).toNat) ∧ (8 ≤ (8 : Byte).toNat ∨ 8 ≤ (0 : Byte).toNat) ∧
      253 ≤ (at_ 253 []).pc.toNat ∧
      (after (exec (.mul Reg.r0.code Reg.r1.code) (put (put (at_ 252 []) .r0 200) .r1 100))).map (fun t => (t.reg .r0, t.pc)) =
        some (32, 255) := by decide
/-- A15, A18, A16 at pc = 252; A22 (pc = 253); A23. -/
theorem witness_CmpStoresOnePattern :
    (at_ 252 []).pc.toNat ≤ 252 ∧ (5 : Byte).toNat = (5 : Byte).toNat ∧ (0 : Byte).toNat < (255 : Byte).toNat ∧
      (8 ≤ (0 : Byte).toNat ∨ 8 ≤ (9 : Byte).toNat) ∧ 253 ≤ (at_ 253 []).pc.toNat ∧
      (after (exec (.cmp 0 1) (put (put (put (at_ 252 []) .r0 5) .r1 5) .r6 0xFF))).map (fun t => t.reg .r6) = some 0x01 ∧
      (after (exec (.cmp 0 1) (put (at_ 252 []) .r1 255))).map (fun t => t.reg .r6) = some 0x04 ∧
      (after (exec (.cmp 0 1) (put (at_ 252 []) .r0 255))).map (fun t => t.reg .r6) = some 0x02 := by decide
theorem witness_MemReadIsBounded :
    255 < 256 ∧ 256 ≤ 256 ∧ (at_ 255 [7]).memRead 255 = .ok 7 ∧ (at_ 255 [7]).memRead 256 = .error .outOfBounds := by decide
/-- A value of 256 + 7 is stored as 7; a value of 256 is stored as 0 and leaves no cell. -/
theorem witness_MemWriteChangesOneByte :
    255 < 256 ∧ 256 ≤ 256 ∧ State.reset.memWrite 255 263 = .ok { State.reset with mem := [(255, 7)] } ∧
      (at_ 255 [7]).memWrite 255 256 = .ok { State.reset with pc := 255 } ∧
      State.reset.memWrite 256 1 = .error .outOfBounds := by decide
theorem witness_EqualReadsAreEqualMemories :
    Memory.wf [(0, 1), (255, 7)] = true ∧
      ∀ a : Nat, a < 256 → Memory.read [(0, 1), (255, 7)] a = Memory.read (Memory.write [(255, 7)] 0 1) a :=
  ⟨by decide, fun _ _ => rfl⟩
theorem witness_AluComputesThreeOperations :
    (0xA1 : Byte) ≠ 0xA0 ∧ (0xA1 : Byte) ≠ 0xA2 ∧ (0xA1 : Byte) ≠ 0xA7 ∧ alu 0xA1 9 9 = .error .unsupportedAluOperation := by decide
theorem witness_EncodeInvertsDecode : decode 0x56 200 9 = .ok (.jne 200) ∧ encode (.jne 200) = [0x56, 200] := by decide
theorem witness_InstructionByteIsClassified :
    decode 0xFF 9 9 = .error .unsupportedAluOperation ∧ decode 0xDF 9 9 = .error .unknownInstruction := by decide
/-- A step at pc = 253, well formed (J2) and ill formed (S13). -/
theorem witness_StepRunsDecodedInstruction :
    (at_ 253 [0x82, 0x08, 0x00]).Running ∧ (at_ 253 [0x82, 0x08, 0x00]).pc.toNat ≤ 253 ∧
      decode (Memory.read (at_ 253 [0x82, 0x08, 0x00]).mem 253) (Memory.read (at_ 253 [0x82, 0x08, 0x00]).mem 254)
        (Memory.read (at_ 253 [0x82, 0x08, 0x00]).mem 255) = .ok (.ldi 8 0) ∧
      decode (Memory.read (at_ 253 [0x01]).mem 253) (Memory.read (at_ 253 [0x01]).mem 254)
        (Memory.read (at_ 253 [0x01]).mem 255) = .ok .hlt := by decide
theorem witness_StoredInstructionIsExecuted :
    (at_ 253 [0x46, 0x01]).Running ∧ (at_ 253 [0x46, 0x01]).pc.toNat ≤ 253 ∧
      ∀ k, (h : k < (encode (.pop 1)).length) → Memory.read (at_ 253 [0x46, 0x01]).mem (253 + k) = (encode (.pop 1))[k] := by decide
/-- S14, S15, and a state with both fields set. -/
theorem witness_TerminalStatesStop :
    (State.reset.raise .outOfBounds 0).fault ≠ none ∧ (State.reset.raise .outOfBounds 0).halt.fault ≠ none ∧
      State.reset.halt.fault = none ∧ State.reset.halt.halted = true ∧ after (step State.reset.halt) = none := by decide
/-- S6 and S7. -/
theorem witness_PrefetchPastTopFaults :
    (at_ 254 [0xFF]).Running ∧ 254 ≤ (at_ 254 [0xFF]).pc.toNat ∧ (at_ 255 []).Running ∧ 254 ≤ (at_ 255 []).pc.toNat ∧
      (after (step (at_ 255 []))).map State.fault = some (some ⟨.outOfBounds, 255, 0⟩) := by decide
/-- S3 at pc = 253, and a known byte on the other side of the equivalence. -/
theorem witness_UnknownInstructionIsRaised :
    (at_ 253 [0xDF]).Running ∧ (at_ 253 [0xDF]).pc.toNat ≤ 253 ∧ (Memory.read (at_ 253 [0xDF]).mem 253).getLsbD 5 = false ∧
      Memory.read (at_ 253 [0xDF]).mem 253 ∉ [0x82, 0x47, 0x01, 0x45, 0x46, 0x54, 0x55, 0x56] ∧
      (after (step (at_ 253 [0x01]))).map State.fault = some none := by decide
/-- S2 at pc = 253, and a known byte on the other side of the equivalence. -/
theorem witness_UnsupportedAluOperationIsRaised :
    (at_ 253 [0xFF]).Running ∧ (at_ 253 [0xFF]).pc.toNat ≤ 253 ∧ (Memory.read (at_ 253 [0xFF]).mem 253).getLsbD 5 = true ∧
      Memory.read (at_ 253 [0xFF]).mem 253 ∉ [0xA0, 0xA2, 0xA7] ∧
      (after (step (at_ 0 [0xA0, 0, 0]))).map State.fault = some none := by decide
theorem witness_FaultsArePrecise :
    (after (step (at_ 253 [0xA7, 0, 1]))).map State.fault = some (some ⟨.outOfBounds, 253, 0xA7⟩) := by decide
theorem witness_FirstErrorIsReported : State.reset.Running ∧ firstError 0 0 0 0 = some .unknownInstruction := by decide
/-- One step for each clause: a fault, a three-byte, a two-byte, HLT, a jump taken, a jump not taken. -/
theorem witness_ProgramCounterTable :
    (after (step (at_ 254 []))).map (fun t => (t.fault.isSome, t.pc)) = some (true, 254) ∧
      (after (step (at_ 252 [0x82, 0, 0]))).map (fun t => (t.fault, t.pc)) = some (none, 255) ∧
      (after (step (at_ 253 [0x47, 0]))).map (fun t => (t.fault, t.pc)) = some (none, 255) ∧
      (after (step (at_ 253 [0x01]))).map (fun t => (t.fault, t.pc)) = some (none, 253) ∧
      (after (step (put (at_ 9 [0x55, 2]) .r6 1))).map (fun t => (t.fault, t.pc)) = some (none, 0) ∧
      (after (step (put (at_ 9 [0x56, 2]) .r6 1))).map (fun t => (t.fault, t.pc)) = some (none, 11) := by decide
theorem witness_OnlyHltHalts :
    (after (step (at_ 253 [0x01]))).map State.halted = some true ∧ (after (step (at_ 254 [0x01]))).map State.halted = some false := by
  decide
theorem witness_OnlyPrnEmits :
    (after (step (at_ 0 [0x47, 7]))).map State.out = some [244] ∧ (after (step (at_ 0 [0x82, 0, 0]))).map State.out = some [] := by
  decide
theorem witness_OnlyPushWritesMemory :
    (after (step (at_ 0 [0x45, 7]))).map (fun t => decide (Memory.read t.mem 0xF3 ≠ Memory.read (at_ 0 [0x45, 7]).mem 0xF3)) =
      some true := by decide
theorem witness_OnlyNamedRegistersChange :
    (after (step (at_ 0 [0x82, 6, 1]))).map (fun t => t.reg .r6) = some 1 ∧ (at_ 0 [0x82, 6, 1]).reg .r6 = 0 ∧
      (after (step (at_ 0 [0x46, 0]))).map (fun t => t.reg .r7) = some 0xF5 ∧
      (after (step (at_ 0 [0xA7, 0, 0]))).map (fun t => t.reg .r6) = some 1 := by decide
/-- Reset has the invariant and takes a step; so does a state about to PUSH. -/
theorem witness_StepKeepsInvariant :
    Memory.wf (at_ 0 [0x45, 7]).mem = true ∧ (at_ 0 [0x45, 7]).halted = false ∧ (at_ 0 [0x45, 7]).fault = none ∧
      (after (step (at_ 0 [0x45, 7]))).map (fun t => Memory.wf t.mem) = some true := by decide
theorem witness_OutputIsNeverReadBack :
    (after (step (at_ 0 [0x47, 7]))).isSome = true ∧ after (step State.reset.halt) = none := by decide
/-- R7 = 0, so the pair wraps; pc = 251 is the highest that leaves room for both. -/
theorem witness_PushThenPopRestores :
    Reg.r0 ≠ Reg.r7 ∧ Reg.r1 ≠ Reg.r7 ∧ (put (at_ 251 []) .r7 0).pc.toNat ≤ 251 ∧
      ((after (exec (.push 0) (put (put (at_ 251 []) .r7 0) .r0 9))).bind (fun t => after (exec (.pop 1) t))).map
        (fun u => (u.reg .r1, u.reg .r7, u.pc)) = some (9, 0, 255) := by decide
/-- Equal and unequal registers at pc = 250. -/
theorem witness_CompareThenJump :
    (at_ 250 []).pc.toNat ≤ 250 ∧ (at_ 250 []).reg .r0 = (at_ 250 []).reg .r1 ∧ (at_ 250 []).reg .r0 ≠ (at_ 250 []).reg .r7 := by
  decide
/-- Program G5: PUSH at 6 with R7 = 9 stores at 8. -/
theorem witness_StoreIsSeenByNextFetch :
    (put (at_ 6 [0x45, 0]) .r7 9).pc.toNat ≤ 251 ∧
      (put (at_ 6 [0x45, 0]) .r7 9).pc.toNat + 2 = (((put (at_ 6 [0x45, 0]) .r7 9).reg .r7).toNat + 255) % 256 := by decide
/-- J6. -/
theorem witness_JumpToItselfNeverEnds :
    (put (at_ 5 [0x54, 0]) .r0 5).Running ∧ (put (at_ 5 [0x54, 0]) .r0 5).pc.toNat ≤ 253 ∧
      Memory.read (put (at_ 5 [0x54, 0]) .r0 5).mem 5 = 0x54 ∧
      Memory.read (put (at_ 5 [0x54, 0]) .r0 5).mem 6 = Reg.r0.code ∧
      (put (at_ 5 [0x54, 0]) .r0 5).reg .r0 = (put (at_ 5 [0x54, 0]) .r0 5).pc := by decide
/-- Z2, Z4, Z5. -/
theorem witness_LaunchPlacesImage :
    ([] : List Byte).length ≤ 256 ∧ (List.replicate 256 (1 : Byte)).length ≤ 256 ∧
      256 < (List.replicate 257 (1 : Byte)).length ∧ State.launch [] = some State.reset := by
  refine ⟨by decide, ?_, ?_, by decide⟩ <;> rw [List.length_replicate] <;> decide
/-- S16, and a machine already Halted. -/
theorem witness_ForcedHaltSetsHaltedOnly :
    State.reset.Running ∧ State.reset.forceHalt = some State.reset.halt ∧ ¬ State.reset.halt.Running ∧
      State.reset.halt.forceHalt = none := by decide
theorem witness_TraceShowsStateBeforeExecution :
    (at_ 253 [0x01]).Running ∧ (at_ 253 [0x01]).pc.toNat ≤ 253 ∧ 254 ≤ (at_ 254 []).pc.toNat ∧ ¬ State.reset.halt.Running ∧
      (State.reset.trace).map TraceTuple.regs = some State.reset.regs := by decide

end Sys2Proof.Tests
end

namespace Sys2Proof.Machine

/-- Settles O12: `State.memRead_spec` gives the two outcomes, and the bound on the address picks one (20_memory.md R31). -/
theorem memReadIsBounded : Obligations.MemReadIsBounded := by
  intro s a
  obtain ⟨below, read⟩ | ⟨above, outOfBounds⟩ := s.memRead_spec a
  · exact ⟨fun _ => read, fun h => absurd below (Nat.not_lt.mpr h)⟩
  · exact ⟨fun h => absurd h (Nat.not_lt.mpr above), fun _ => outOfBounds⟩

end Sys2Proof.Machine

namespace Sys2Proof

/-! ## Which instruction bytes are errors (30_encoding.md R54) -/

/-- The opcodes that R54 dispatches before it looks at bit 5. -/
def fixedDispatchOpcodes : List Byte :=
  [Opcode.ldi, Opcode.prn, Opcode.hlt, Opcode.push, Opcode.pop, Opcode.jmp, Opcode.jeq, Opcode.jne]

/-- The opcodes of the arithmetic/compare handler. -/
def aluOpcodes : List Byte := [Opcode.add, Opcode.mul, Opcode.cmp]

theorem classify_of_mem_fixedDispatchOpcodes : ∀ ir ∈ fixedDispatchOpcodes,
    isAlu ir = false ∧ classify ir ≠ .unknownInstruction ∧ classify ir ≠ .unsupportedAluOperation := by decide

theorem classify_of_mem_aluOpcodes : ∀ ir ∈ aluOpcodes,
    isAlu ir = true ∧ classify ir ≠ .unknownInstruction ∧ classify ir ≠ .unsupportedAluOperation := by decide

/-- A byte that is no opcode falls through every test of `classify` but that of bit 5. -/
theorem classify_of_not_mem {ir : Byte} (notFixed : ir ∉ fixedDispatchOpcodes) (notAlu : ir ∉ aluOpcodes) :
    classify ir = if isAlu ir then .unsupportedAluOperation else .unknownInstruction := by
  simp only [fixedDispatchOpcodes, aluOpcodes, List.mem_cons, List.not_mem_nil, or_false, not_or] at notFixed notAlu
  simp only [classify, notFixed, notAlu, if_false]

theorem classify_eq_unsupported_iff (ir : Byte) :
    classify ir = .unsupportedAluOperation ↔ isAlu ir = true ∧ ir ∉ aluOpcodes := by
  by_cases fixed : ir ∈ fixedDispatchOpcodes
  · obtain ⟨bitClear, -, supported⟩ := classify_of_mem_fixedDispatchOpcodes ir fixed
    simp [bitClear, supported]
  by_cases alu : ir ∈ aluOpcodes
  · obtain ⟨-, -, supported⟩ := classify_of_mem_aluOpcodes ir alu
    simp [alu, supported]
  · simp [classify_of_not_mem fixed alu, alu]

theorem classify_eq_unknown_iff (ir : Byte) :
    classify ir = .unknownInstruction ↔ isAlu ir = false ∧ ir ∉ fixedDispatchOpcodes := by
  by_cases fixed : ir ∈ fixedDispatchOpcodes
  · obtain ⟨-, known, -⟩ := classify_of_mem_fixedDispatchOpcodes ir fixed
    simp [fixed, known]
  by_cases alu : ir ∈ aluOpcodes
  · obtain ⟨bitSet, known, -⟩ := classify_of_mem_aluOpcodes ir alu
    simp [bitSet, known]
  · simp [classify_of_not_mem fixed alu, fixed]

/-- The decoder raises only the two illegal classes, each as the error of its own name. -/
theorem decode_eq_error_iff (ir opa opb : Byte) (k : ErrorKind) :
    decode ir opa opb = .error k ↔
      (classify ir = .unsupportedAluOperation ∧ k = .unsupportedAluOperation) ∨
        (classify ir = .unknownInstruction ∧ k = .unknownInstruction) := by
  unfold decode
  cases classify ir <;> simp [eq_comm]

theorem decode_eq_unsupported_iff (ir opa opb : Byte) :
    decode ir opa opb = .error .unsupportedAluOperation ↔ isAlu ir = true ∧ ir ∉ aluOpcodes := by
  simp [decode_eq_error_iff, classify_eq_unsupported_iff]

theorem decode_eq_unknown_iff (ir opa opb : Byte) :
    decode ir opa opb = .error .unknownInstruction ↔ isAlu ir = false ∧ ir ∉ fixedDispatchOpcodes := by
  simp [decode_eq_error_iff, classify_eq_unknown_iff]

/-- Settles O19: each opcode evaluates to its instruction, and the two errors are the two illegal classes, which bit 5 tells
apart (30_encoding.md R54). -/
theorem instructionByteIsClassified : Obligations.InstructionByteIsClassified := by
  intro opa opb
  refine ⟨?opcodes, fun ir => decode_eq_unsupported_iff ir opa opb, fun ir => decode_eq_unknown_iff ir opa opb, ?onlyTwo⟩
  case opcodes => exact ⟨rfl, rfl, rfl, rfl, rfl, rfl, rfl, rfl, rfl, rfl, rfl⟩
  case onlyTwo =>
    intro ir k h
    exact ((decode_eq_error_iff ir opa opb k).mp h).imp And.right And.right

end Sys2Proof

namespace Sys2Proof.Machine

/-! ## The error answers of `exec` (60_exceptions.md R105, R106) -/

/-- Raising an error is the whole change that `FaultsWith` describes. -/
theorem State.raise_faultsWith (s : State) (k : ErrorKind) (ir : Byte) : FaultsWith s (s.raise k ir) k ir :=
  ⟨rfl, fun _ => rfl, rfl, fun _ => rfl, rfl, rfl⟩

/-- An instruction has an effect only where each of its operand bytes names a register. -/
theorem Effect.regOperands_lt {i : Instr} {s t : State} (h : Effect i s t) : ∀ b ∈ regOperands i, b.toNat < 8 := by
  cases i with
  | hlt => simp [regOperands]
  | ldi | prn | push | pop | jmp | jeq | jne =>
    obtain ⟨r, rfl, -⟩ := h
    simpa [regOperands] using r.code_lt
  | add | mul | cmp =>
    obtain ⟨ra, rb, rfl, rfl, -⟩ := h
    simpa [regOperands] using ⟨ra.code_lt, rb.code_lt⟩

/-- An operand byte from 8 to 255 takes `InvalidRegister`, at any pc. -/
theorem exec_invalidRegister {i : Instr} {b : Byte} (s : State) (operand : b ∈ regOperands i) (bad : 8 ≤ b.toNat) :
    ∃ t, exec i s = .next t ∧ FaultsWith s t .invalidRegister i.opcode := by
  obtain ⟨t, -, effect⟩ | ⟨raised, -⟩ | ⟨-, good, -⟩ := exec_spec i s
  · exact absurd bad (Nat.not_le.mpr (effect.regOperands_lt b operand))
  · exact ⟨_, raised, s.raise_faultsWith _ _⟩
  · exact absurd bad (Nat.not_le.mpr (good b operand))

/-- An instruction whose operand bytes all name registers, and which still has no effect, takes `OutOfBounds`. -/
theorem exec_outOfBounds {i : Instr} {s : State} (good : ∀ b ∈ regOperands i, b.toNat < 8) (noEffect : ∀ t, ¬ Effect i s t) :
    ∃ t, exec i s = .next t ∧ FaultsWith s t .outOfBounds i.opcode := by
  obtain ⟨t, -, effect⟩ | ⟨-, b, operand, bad⟩ | ⟨raised, -, -⟩ := exec_spec i s
  · exact absurd effect (noEffect t)
  · exact absurd bad (Nat.not_le.mpr (good b operand))
  · exact ⟨_, raised, s.raise_faultsWith _ _⟩

/-! ## The advance of the program counter (10_state.md R16) -/

/-- A value up to 255 is the program counter's byte unchanged: an advance that passes its check does not wrap. -/
theorem toNat_ofNat_of_le_pcMax {n : Nat} (h : n ≤ Config.pcMax) : (BitVec.ofNat 8 n).toNat = n :=
  Nat.mod_eq_of_lt (Nat.lt_succ_of_le h)

/-! ## LDI and PRN (41_data_movement.md) -/

/-- Settles O1: the load is LDI's `Effect`, and past pc 252 that effect's bound on the advance fails (R80). -/
theorem ldiLoadsImmediate : Obligations.LdiLoadsImmediate := by
  intro imm s
  refine ⟨fun reg => ⟨rfl, rfl⟩, ?load, fun b bad => exec_invalidRegister s (by simp [regOperands]) bad, ?pastTop⟩
  case load =>
    intro r below
    have advance : s.pc.toNat + 3 ≤ 255 := by omega
    exact ⟨_, exec_of_effect ⟨r, rfl, advance, rfl⟩, s.setReg_reg r imm, toNat_ofNat_of_le_pcMax advance,
      fun _ => rfl, ⟨rfl, rfl⟩, rfl⟩
  case pastTop =>
    intro r above
    refine exec_outOfBounds (by simpa [regOperands] using r.code_lt) ?_
    rintro t ⟨-, -, advance, -⟩
    omega

/-- Settles O2: the output is PRN's `Effect`, which `emit` makes one element longer (R81). -/
theorem prnEmitsRegister : Obligations.PrnEmitsRegister := by
  intro s
  refine ⟨fun reg opb => ⟨rfl, rfl⟩, ?emit, fun b bad => exec_invalidRegister s (by simp [regOperands]) bad⟩
  case emit =>
    intro r below
    have advance : s.pc.toNat + 2 ≤ 255 := by omega
    exact ⟨_, exec_of_effect ⟨r, rfl, advance, rfl⟩, rfl, toNat_ofNat_of_le_pcMax advance,
      fun _ => rfl, fun _ => rfl, rfl, rfl⟩

end Sys2Proof.Machine

namespace Sys2Proof.Machine

/-! ## Steps that execute nothing (40_step_loop.md R70, R72) -/

/-- Running with a program counter too high for the three-byte prefetch: the step raises `OutOfBounds`, whatever the byte. -/
theorem step_eq_raise_of_prefetch_past_top {s : State} (running : s.Running) (top : 254 ≤ s.pc.toNat) :
    step s = .next (s.raise .outOfBounds s.ir) := by
  obtain ⟨notHalted, noFault⟩ := running
  obtain ⟨faulted, -⟩ | ⟨-, halted, -⟩ | ⟨-, -, -, raised⟩ | ⟨-, -, below, -⟩ := step_spec s
  · simp [noFault] at faulted
  · simp [notHalted] at halted
  · exact raised
  · omega

/-- Once `halted` is set there is no next state: a fault record beside it only makes the stop `faulted` (10_state.md R20). -/
theorem step_ne_next_of_halted {s : State} (halted : s.halted = true) (t : State) : step s ≠ .next t := by
  obtain ⟨-, stop⟩ | ⟨-, -, stop⟩ | ⟨-, notHalted, -⟩ | ⟨-, notHalted, -⟩ := step_spec s
  · simp [stop]
  · simp [stop]
  · simp [halted] at notHalted
  · simp [halted] at notHalted

/-! ## HLT and JMP (43_control_flow.md) -/

/-- Every effect but HLT's leaves `halted` as it was. -/
theorem Effect.halted_eq {i : Instr} {s t : State} (effect : Effect i s t) (notHlt : i ≠ .hlt) : t.halted = s.halted := by
  cases i with
  | hlt => exact absurd rfl notHlt
  | ldi | prn | push | pop =>
    obtain ⟨r, -, -, rfl⟩ := effect
    rfl
  | jmp =>
    obtain ⟨r, -, rfl⟩ := effect
    rfl
  | jeq | jne =>
    obtain ⟨r, -, ⟨-, rfl⟩ | ⟨-, -, rfl⟩⟩ := effect <;> rfl
  | add | mul | cmp =>
    obtain ⟨ra, rb, -, -, -, rfl⟩ := effect
    rfl

/-- An instruction that turns `halted` from false to true is HLT: raising an error does not set it (60_exceptions.md R105). -/
theorem eq_hlt_of_exec_sets_halted {i : Instr} {s t : State} (answer : exec i s = .next t) (before : s.halted = false)
    (after : t.halted = true) : i = .hlt := by
  by_contra notHlt
  have unchanged : t.halted = s.halted := by
    obtain ⟨u, next, effect⟩ | ⟨raised, -⟩ | ⟨raised, -⟩ := exec_spec i s
    · cases next.symm.trans answer
      exact effect.halted_eq notHlt
    · cases raised.symm.trans answer
      rfl
    · cases raised.symm.trans answer
      rfl
  simp [before, after] at unchanged

/-- Settles O6: the jump is JMP's `Effect`, which checks no bound, so a target of 254 or 255 meets the next prefetch (R91). -/
theorem jmpSetsProgramCounter : Obligations.JmpSetsProgramCounter := by
  intro s
  refine ⟨fun reg opb => ⟨rfl, rfl⟩, ?jump, fun b bad => exec_invalidRegister s (by simp [regOperands]) bad⟩
  case jump =>
    intro r
    refine ⟨_, exec_of_effect ⟨r, rfl, rfl⟩, rfl, fun _ => rfl, fun _ => rfl, ⟨rfl, rfl⟩, rfl, ?_⟩
    intro running top
    exact ⟨_, step_eq_raise_of_prefetch_past_top running top, State.raise_faultsWith _ _ _⟩

/-- Settles O3: the halt is HLT's `Effect`; at 254 and 255 the step ends in the prefetch, before HLT is executed (R90). -/
theorem hltHalts : Obligations.HltHalts := by
  intro s
  refine ⟨fun opa opb => rfl, rfl, ?halt, ?prefetch, fun i t => eq_hlt_of_exec_sets_halted⟩
  case halt =>
    exact ⟨s.halt, exec_of_effect rfl, rfl, rfl, fun _ => rfl, fun _ => rfl, rfl, rfl,
      step_ne_next_of_halted s.halt_halted⟩
  case prefetch =>
    intro running top byte
    have raised := step_eq_raise_of_prefetch_past_top running top
    rw [State.ir, byte] at raised
    exact ⟨_, raised, s.raise_faultsWith _ _, running.left⟩

end Sys2Proof.Machine

namespace Sys2Proof.Machine

/-! ## ADD and MUL (44_alu.md) -/

/-- Of two register operands, either one from 8 to 255 takes `InvalidRegister`. -/
theorem exec_invalidRegister_of_operand_pair {i : Instr} {a b : Byte} (s : State) (operands : regOperands i = [a, b])
    (bad : 8 ≤ a.toNat ∨ 8 ≤ b.toNat) : ∃ t, exec i s = .next t ∧ FaultsWith s t .invalidRegister i.opcode := by
  obtain badA | badB := bad
  · exact exec_invalidRegister s (by simp [operands]) badA
  · exact exec_invalidRegister s (by simp [operands]) badB

/-- The instructions with two register operands are the three-byte ALU group, whose effect needs the advance by 3 to fit. -/
theorem Effect.advance_of_operand_pair {i : Instr} {a b : Byte} {s t : State} (effect : Effect i s t)
    (operands : regOperands i = [a, b]) : s.pc.toNat + 3 ≤ 255 := by
  cases i with
  | add | mul | cmp =>
    obtain ⟨-, -, -, -, advance, -⟩ := effect
    exact advance
  | ldi | prn | hlt | push | pop | jmp | jeq | jne => simp [regOperands] at operands

/-- Past pc 252, two operands that name registers take `OutOfBounds`. -/
theorem exec_outOfBounds_of_operand_pair {i : Instr} {ra rb : Reg} {s : State}
    (operands : regOperands i = [ra.code, rb.code]) (above : 253 ≤ s.pc.toNat) :
    ∃ t, exec i s = .next t ∧ FaultsWith s t .outOfBounds i.opcode := by
  refine exec_outOfBounds (by simpa [operands] using ⟨ra.code_lt, rb.code_lt⟩) fun t effect => ?_
  have advance := effect.advance_of_operand_pair operands
  omega

/-- An effect that is one register's low eight bits of `n` and an advance by 3: the next state, with its frame. -/
theorem exec_of_effect_setReg_ofNat {i : Instr} {s : State} {r : Reg} {n : Nat} (advance : s.pc.toNat + 3 ≤ 255)
    (effect : Effect i s ((s.setReg r (BitVec.ofNat 8 n)).setPc (BitVec.ofNat 8 (s.pc.toNat + 3)))) :
    ∃ t, exec i s = .next t ∧ (t.reg r).toNat = n % 256 ∧ (∀ q : Reg, q ≠ r → t.reg q = s.reg q) ∧
      t.pc.toNat = s.pc.toNat + 3 ∧ SameMemory s t ∧ SameRunState s t ∧ t.out = s.out := by
  refine ⟨_, exec_of_effect effect, ?value, ?others, toNat_ofNat_of_le_pcMax advance, fun _ => rfl, ⟨rfl, rfl⟩, rfl⟩
  case value => simp
  case others =>
    intro q other
    simp [other]

/-- Settles O9: the sum is ADD's `Effect`, which writes regA alone; the errors are those of an operand pair (R95). -/
theorem addIsModulo256 : Obligations.AddIsModulo256 := by
  intro s
  refine ⟨fun a b => ⟨rfl, rfl⟩, ?sum, fun a b bad => exec_invalidRegister_of_operand_pair s rfl bad,
    fun ra rb above => exec_outOfBounds_of_operand_pair rfl above⟩
  case sum =>
    intro ra rb below
    have advance : s.pc.toNat + 3 ≤ 255 := by omega
    exact exec_of_effect_setReg_ofNat advance ⟨ra, rb, rfl, rfl, advance, rfl⟩

/-- Settles O10: the product is MUL's `Effect`, which writes regA alone; the errors are those of an operand pair (R96). -/
theorem mulIsModulo256 : Obligations.MulIsModulo256 := by
  intro s
  refine ⟨fun a b => ⟨rfl, rfl⟩, ?product, fun a b bad => exec_invalidRegister_of_operand_pair s rfl bad,
    fun ra rb above => exec_outOfBounds_of_operand_pair rfl above⟩
  case product =>
    intro ra rb below
    have advance : s.pc.toNat + 3 ≤ 255 := by omega
    exact exec_of_effect_setReg_ofNat advance ⟨ra, rb, rfl, rfl, advance, rfl⟩

end Sys2Proof.Machine

namespace Sys2Proof.Machine

/-! ## The decoder's errors in a step (60_exceptions.md R103, R104) -/

/-- No effect touches the fault record: a record is made only by raising an error (R105). -/
theorem Effect.fault_eq {i : Instr} {s t : State} (effect : Effect i s t) : t.fault = s.fault := by
  cases i with
  | hlt =>
    obtain rfl := effect
    rfl
  | ldi | prn | push | pop =>
    obtain ⟨r, -, -, rfl⟩ := effect
    rfl
  | jmp =>
    obtain ⟨r, -, rfl⟩ := effect
    rfl
  | jeq | jne =>
    obtain ⟨r, -, ⟨-, rfl⟩ | ⟨-, -, rfl⟩⟩ := effect <;> rfl
  | add | mul | cmp =>
    obtain ⟨ra, rb, -, -, -, rfl⟩ := effect
    rfl

/-- An instruction can put only `InvalidRegister` or `OutOfBounds` in the record; the other two kinds are the decoder's. -/
theorem kind_of_exec_sets_fault {i : Instr} {s t : State} {f : FaultRecord} (answer : exec i s = .next t)
    (before : s.fault = none) (after : t.fault = some f) : f.kind = .invalidRegister ∨ f.kind = .outOfBounds := by
  obtain ⟨u, next, effect⟩ | ⟨raised, -⟩ | ⟨raised, -⟩ := exec_spec i s
  · cases next.symm.trans answer
    simp [effect.fault_eq, before] at after
  · cases raised.symm.trans answer
    cases after
    exact .inl rfl
  · cases raised.symm.trans answer
    cases after
    exact .inr rfl

/-- Running with the three prefetched bytes in memory: the step executes what they decode to, or raises the decoder's error. -/
theorem step_of_prefetch_in_bounds {s : State} (running : s.Running) (inBounds : s.pc.toNat ≤ 253) :
    (∃ i, decode s.ir (Memory.read s.mem (s.pc.toNat + 1)) (Memory.read s.mem (s.pc.toNat + 2)) = .ok i ∧
        step s = exec i s) ∨
      (∃ k, decode s.ir (Memory.read s.mem (s.pc.toNat + 1)) (Memory.read s.mem (s.pc.toNat + 2)) = .error k ∧
        step s = .next (s.raise k s.ir)) := by
  obtain ⟨notHalted, noFault⟩ := running
  obtain ⟨faulted, -⟩ | ⟨-, halted, -⟩ | ⟨-, -, top, -⟩ | ⟨-, -, -, answer⟩ := step_spec s
  · simp [noFault] at faulted
  · simp [notHalted] at halted
  · omega
  · exact answer

/-- An error kind that no instruction raises is the step's answer exactly where it is the decoder's. -/
theorem decode_eq_error_iff_step_faultsWith {s : State} {k : ErrorKind} (running : s.Running)
    (inBounds : s.pc.toNat ≤ 253) (notRegister : k ≠ .invalidRegister) (notBounds : k ≠ .outOfBounds) :
    decode s.ir (Memory.read s.mem (s.pc.toNat + 1)) (Memory.read s.mem (s.pc.toNat + 2)) = .error k ↔
      ∃ t, step s = .next t ∧ FaultsWith s t k s.ir := by
  obtain ⟨i, decoded, executed⟩ | ⟨k', decoded, raised⟩ := step_of_prefetch_in_bounds running inBounds
  · rw [decoded, executed]
    constructor
    · nofun
    · rintro ⟨t, answer, record, -⟩
      exact absurd (kind_of_exec_sets_fault answer running.right record) (not_or.mpr ⟨notRegister, notBounds⟩)
  · rw [decoded, raised]
    constructor
    · rintro ⟨⟩
      exact ⟨_, rfl, s.raise_faultsWith k s.ir⟩
    · rintro ⟨t, ⟨⟩, record, -⟩
      cases record
      rfl

/-- Settles O26: the step raises it where the decoder does, and the decoder does by bit 5 and the eight opcodes (R103). -/
theorem unknownInstructionIsRaised : Obligations.UnknownInstructionIsRaised := by
  intro s running inBounds
  exact (decode_eq_unknown_iff s.ir _ _).symm.trans
    (decode_eq_error_iff_step_faultsWith running inBounds nofun nofun)

/-- Settles O27: the step raises it where the decoder does, and the decoder does by bit 5 and the three opcodes (R104). -/
theorem unsupportedAluOperationIsRaised : Obligations.UnsupportedAluOperationIsRaised := by
  intro s running inBounds
  exact (decode_eq_unsupported_iff s.ir _ _).symm.trans
    (decode_eq_error_iff_step_faultsWith running inBounds nofun nofun)

end Sys2Proof.Machine

namespace Sys2Proof

/-! ## Decoder and encoder (30_encoding.md R50 to R53) -/

theorem encode_length (i : Instr) : (encode i).length = i.length := Nat.add_comm _ _

theorem Instr.length_bounds (i : Instr) : 1 ≤ i.length ∧ i.length ≤ 3 := by
  cases i <;> simp [Instr.length, Instr.operands]

/-- Three bytes decode to an instruction exactly when they begin with its encoding: decoder and encoder are inverse. -/
theorem decode_eq_ok_iff (ir opa opb : Byte) (i : Instr) :
    decode ir opa opb = .ok i ↔ encode i = [ir, opa, opb].take i.length := by
  constructor
  · intro decoded
    have opcode := decode_opcode decoded
    cases i with
    | hlt | prn | push | pop | jmp | jeq | jne | ldi | add | mul | cmp =>
      dsimp only [Instr.opcode] at opcode
      subst opcode
      cases decoded
      rfl
  · intro bytes
    cases i with
    | hlt | prn | push | pop | jmp | jeq | jne | ldi | add | mul | cmp =>
      dsimp only [encode, Instr.opcode] at bytes
      cases bytes
      rfl

/-- A window of three bytes or more that begins with an encoding decodes to the instruction. -/
theorem decodeBytes_of_take_eq_encode {i : Instr} {bytes : List Byte} (long : 3 ≤ bytes.length)
    (starts : bytes.take i.length = encode i) : decodeBytes bytes = .ok i := by
  obtain ⟨ir, opa, opb, rest, rfl⟩ : ∃ ir opa opb rest, bytes = [ir, opa, opb] ++ rest := by
    match bytes, long with
    | ir :: opa :: opb :: rest, _ => exact ⟨ir, opa, opb, rest, rfl⟩
  rw [List.take_append_of_le_length (Instr.length_bounds i).right] at starts
  exact (decode_eq_ok_iff ir opa opb i).mpr starts.symm

/-- Settles O16: the encoding and two bytes after it are a long enough window. -/
theorem decodeInvertsEncode : Obligations.DecodeInvertsEncode := by
  intro i x y rest
  refine decodeBytes_of_take_eq_encode ?long (List.take_left' (encode_length i))
  case long =>
    simp only [encode, List.length_append, List.length_cons]
    omega

/-- Settles O18: `decode_eq_ok_iff` from left to right, with the lengths of R51. -/
theorem encodeInvertsDecode : Obligations.EncodeInvertsDecode :=
  fun ir opa opb i decoded => ⟨(decode_eq_ok_iff ir opa opb i).mp decoded, Instr.length_bounds i⟩

/-- Where an instruction has operands, the first is the byte behind the instruction byte. -/
theorem first_operand_of_decode {ir opa opb b : Byte} {i : Instr} (decoded : decode ir opa opb = .ok i)
    (first : i.operands.head? = some b) : opa = b := by
  have bytes := (decode_eq_ok_iff ir opa opb i).mp decoded
  cases i with
  | hlt => cases first
  | prn | push | pop | jmp | jeq | jne | ldi | add | mul | cmp =>
    cases first
    cases bytes
    rfl

/-- Settles O20: the three counts, evaluated over all 256 bytes (95_test_vectors.md, decoder totals). -/
theorem illegalByteTotals : Obligations.IllegalByteTotals := ⟨rfl, rfl, rfl⟩

/-- Settles O21: each word evaluates to its instruction (95_test_vectors.md). -/
theorem specWordsDecode : Obligations.SpecWordsDecode := ⟨rfl, rfl, rfl, rfl, rfl, rfl, rfl, rfl, rfl, rfl, rfl⟩

end Sys2Proof

namespace Sys2Proof.Machine

/-! ## What a step is, by the state it starts from (40_step_loop.md R70) -/

/-- Settles O24: the two terminal cases of `step_spec` (R20, D22). -/
theorem terminalStatesStop : Obligations.TerminalStatesStop := by
  intro s
  obtain ⟨faulted, stop⟩ | ⟨noFault, halted, stop⟩ | ⟨noFault, notHalted, -⟩ | ⟨noFault, notHalted, -⟩ := step_spec s
  · exact ⟨fun _ => stop, fun noFault => by simp [noFault] at faulted⟩
  · exact ⟨fun faulted => absurd noFault faulted, fun _ _ => stop⟩
  · exact ⟨fun faulted => absurd noFault faulted, fun _ halted => by simp [notHalted] at halted⟩
  · exact ⟨fun faulted => absurd noFault faulted, fun _ halted => by simp [notHalted] at halted⟩

theorem step_eq_exec_of_decode {s : State} {i : Instr} (running : s.Running) (inBounds : s.pc.toNat ≤ 253)
    (decoded : decode s.ir (Memory.read s.mem (s.pc.toNat + 1)) (Memory.read s.mem (s.pc.toNat + 2)) = .ok i) :
    step s = exec i s := by
  obtain ⟨j, decoded', executed⟩ | ⟨k, error, -⟩ := step_of_prefetch_in_bounds running inBounds
  · cases decoded.symm.trans decoded'
    exact executed
  · cases decoded.symm.trans error

theorem step_eq_raise_of_decode_error {s : State} {k : ErrorKind} (running : s.Running) (inBounds : s.pc.toNat ≤ 253)
    (error : decode s.ir (Memory.read s.mem (s.pc.toNat + 1)) (Memory.read s.mem (s.pc.toNat + 2)) = .error k) :
    step s = .next (s.raise k s.ir) := by
  obtain ⟨i, decoded, -⟩ | ⟨k', error', raised⟩ := step_of_prefetch_in_bounds running inBounds
  · cases error.symm.trans decoded
  · cases error.symm.trans error'
    exact raised

/-- Settles O22: `step_eq_exec_of_decode`, with the byte at pc written out (R70). -/
theorem stepRunsDecodedInstruction : Obligations.StepRunsDecodedInstruction :=
  fun _ _ running inBounds decoded => step_eq_exec_of_decode running inBounds decoded

/-- The three bytes from an address where an instruction is stored decode to it: bytes past its own are not looked at. -/
theorem decode_of_stored {m : Memory} {a : Nat} {i : Instr}
    (stored : ∀ k (h : k < (encode i).length), Memory.read m (a + k) = (encode i)[k]) :
    decode (Memory.read m a) (Memory.read m (a + 1)) (Memory.read m (a + 2)) = .ok i := by
  have window : [Memory.read m a, Memory.read m (a + 1), Memory.read m (a + 2)] =
      (List.range 3).map fun k => Memory.read m (a + k) := rfl
  have fits := (Instr.length_bounds i).right
  refine (decode_eq_ok_iff _ _ _ _).mpr (List.ext_getElem ?lengths ?bytes)
  case lengths => simp [encode_length, fits]
  case bytes =>
    intro k h _
    simp [window, stored k h]

/-- Settles O17: the stored bytes decode to the instruction, and the step executes what they decode to (R70, R71). -/
theorem storedInstructionIsExecuted : Obligations.StoredInstructionIsExecuted :=
  fun _ _ running inBounds stored => step_eq_exec_of_decode running inBounds (decode_of_stored stored)

/-- Settles O25: the prefetch bound comes before everything but the run state (R72, D15). -/
theorem prefetchPastTopFaults : Obligations.PrefetchPastTopFaults :=
  fun s running top => ⟨_, step_eq_raise_of_prefetch_past_top running top, s.raise_faultsWith _ _⟩

/-- Settles O35: each of the three outcomes of `exec_spec` is a next state. -/
theorem everyInstructionAnswersNext : Obligations.EveryInstructionAnswersNext := by
  intro i s
  obtain ⟨t, next, -⟩ | ⟨raised, -⟩ | ⟨raised, -⟩ := exec_spec i s
  · exact ⟨t, next⟩
  · exact ⟨_, raised⟩
  · exact ⟨_, raised⟩

/-- All that a step which answers a next state has done: it started in Running, and either raised one error, which is
recorded with the byte at pc, or carried out the effect of the decoded instruction (R70, 60_exceptions.md R105). -/
theorem step_eq_next {s t : State} (answer : step s = .next t) :
    s.Running ∧ ((∃ k, t = s.raise k s.ir) ∨
      (s.pc.toNat ≤ 253 ∧
        ∃ i, decode s.ir (Memory.read s.mem (s.pc.toNat + 1)) (Memory.read s.mem (s.pc.toNat + 2)) = .ok i ∧ Effect i s t)) := by
  obtain ⟨-, stop⟩ | ⟨-, -, stop⟩ | ⟨noFault, notHalted, -, raised⟩ |
    ⟨noFault, notHalted, inBounds, ⟨i, decoded, executed⟩ | ⟨k, -, raised⟩⟩ := step_spec s
  · cases stop.symm.trans answer
  · cases stop.symm.trans answer
  · cases raised.symm.trans answer
    exact ⟨⟨notHalted, noFault⟩, .inl ⟨_, rfl⟩⟩
  · refine ⟨⟨notHalted, noFault⟩, ?_⟩
    rw [executed] at answer
    rw [← decode_opcode decoded]
    obtain ⟨u, next, effect⟩ | ⟨raised, -⟩ | ⟨raised, -⟩ := exec_spec i s
    · cases next.symm.trans answer
      exact .inr ⟨inBounds, i, decode_opcode decoded ▸ decoded, effect⟩
    · cases raised.symm.trans answer
      exact .inl ⟨_, rfl⟩
    · cases raised.symm.trans answer
      exact .inl ⟨_, rfl⟩
  · cases raised.symm.trans answer
    exact ⟨⟨notHalted, noFault⟩, .inl ⟨_, rfl⟩⟩

/-- Settles O23: `step_eq_next` in one direction; in the other no case of a Running step is a stop (D22). -/
theorem stepIsEnabledExactlyInRunning : Obligations.StepIsEnabledExactlyInRunning := by
  intro s
  refine ⟨fun ⟨t, answer⟩ => (step_eq_next answer).left, fun running => ?_⟩
  by_cases inBounds : s.pc.toNat ≤ 253
  · obtain ⟨i, -, executed⟩ | ⟨k, -, raised⟩ := step_of_prefetch_in_bounds running inBounds
    · rw [executed]
      exact everyInstructionAnswersNext i s
    · exact ⟨_, raised⟩
  · exact ⟨_, step_eq_raise_of_prefetch_past_top running (by omega)⟩

/-- Settles O28: an effect leaves no fault record, so the step raised (60_exceptions.md R105, R106). -/
theorem faultsArePrecise : Obligations.FaultsArePrecise := by
  intro s t answer faulted
  obtain ⟨⟨-, noFault⟩, ⟨k, rfl⟩ | ⟨-, i, -, effect⟩⟩ := step_eq_next answer
  · exact ⟨k, s.raise_faultsWith k s.ir⟩
  · exact absurd (effect.fault_eq.trans noFault) faulted

/-! ## What an effect changes -/

/-- Memory is PUSH's alone to write: one byte, just below R7 (20_memory.md R33). -/
theorem Effect.mem_cases {i : Instr} {s t : State} (effect : Effect i s t) :
    t.mem = s.mem ∨ (i.opcode = 0x45 ∧ ∃ v, t.mem = Memory.write s.mem (s.reg .sp + 255).toNat v) := by
  cases i with
  | push =>
    obtain ⟨r, -, -, rfl⟩ := effect
    exact .inr ⟨rfl, _, rfl⟩
  | hlt =>
    obtain rfl := effect
    exact .inl rfl
  | ldi | prn | pop =>
    obtain ⟨r, -, -, rfl⟩ := effect
    exact .inl rfl
  | jmp =>
    obtain ⟨r, -, rfl⟩ := effect
    exact .inl rfl
  | jeq | jne =>
    obtain ⟨r, -, ⟨-, rfl⟩ | ⟨-, -, rfl⟩⟩ := effect <;> exact .inl rfl
  | add | mul | cmp =>
    obtain ⟨ra, rb, -, -, -, rfl⟩ := effect
    exact .inl rfl

theorem Effect.mem_wf {i : Instr} {s t : State} (effect : Effect i s t) (canonical : Memory.wf s.mem = true) :
    Memory.wf t.mem = true := by
  obtain same | ⟨-, v, written⟩ := effect.mem_cases
  · rwa [same]
  · rw [written]
    exact Memory.wf_write v (BitVec.isLt _) canonical

/-- Raising an error in a state that is not Halted makes a record that names pc and the byte there (R105). -/
theorem Inv.raise {s : State} (inv : Inv s) (notHalted : s.halted = false) (k : ErrorKind) : Inv (s.raise k s.ir) where
  memory_canonical := inv.memory_canonical
  one_terminal_state halted := by simp [notHalted] at halted
  record_names_pc := by
    rintro f ⟨⟩
    exact ⟨rfl, rfl⟩

/-- An effect in a state with no fault leaves none, so two of the invariant's clauses are about nothing. -/
theorem Inv.effect {i : Instr} {s t : State} (inv : Inv s) (noFault : s.fault = none) (effect : Effect i s t) : Inv t where
  memory_canonical := effect.mem_wf inv.memory_canonical
  one_terminal_state _ := effect.fault_eq.trans noFault
  record_names_pc f record := by simp [effect.fault_eq, noFault] at record

/-- Settles O36: a step raises an error or carries out an effect, and both keep the invariant. -/
theorem stepKeepsInvariant : Obligations.StepKeepsInvariant := by
  intro s t inv answer
  obtain ⟨⟨notHalted, noFault⟩, ⟨k, rfl⟩ | ⟨-, i, -, effect⟩⟩ := step_eq_next answer
  · exact inv.raise notHalted k
  · exact inv.effect noFault effect

/-- Settles O33: of the two things a step can do only PUSH's effect touches memory, at one address (R32, R33). -/
theorem onlyPushWritesMemory : Obligations.OnlyPushWritesMemory := by
  intro s t a answer changed
  obtain ⟨-, ⟨k, rfl⟩ | ⟨-, i, decoded, effect⟩⟩ := step_eq_next answer
  · exact absurd rfl changed
  obtain same | ⟨push, v, written⟩ := effect.mem_cases
  · exact absurd (by rw [same]) changed
  · refine ⟨(decode_opcode decoded).symm.trans push, ?_⟩
    by_contra elsewhere
    refine changed ?_
    rw [written, Memory.read_write, if_neg]
    simpa [BitVec.toNat_add] using elsewhere

end Sys2Proof.Machine

namespace Sys2Proof.Machine

/-! ## Output (10_state.md R21) -/

/-- The output is PRN's alone to extend. -/
theorem Effect.out_cases {i : Instr} {s t : State} (effect : Effect i s t) :
    t.out = s.out ∨ ∃ r : Reg, i = .prn r.code ∧ t.out = s.out ++ [s.reg r] := by
  cases i with
  | prn =>
    obtain ⟨r, rfl, -, rfl⟩ := effect
    exact .inr ⟨r, rfl, rfl⟩
  | hlt =>
    obtain rfl := effect
    exact .inl rfl
  | ldi | push | pop =>
    obtain ⟨r, -, -, rfl⟩ := effect
    exact .inl rfl
  | jmp =>
    obtain ⟨r, -, rfl⟩ := effect
    exact .inl rfl
  | jeq | jne =>
    obtain ⟨r, -, ⟨-, rfl⟩ | ⟨-, -, rfl⟩⟩ := effect <;> exact .inl rfl
  | add | mul | cmp =>
    obtain ⟨ra, rb, -, -, -, rfl⟩ := effect
    exact .inl rfl

/-- Settles O32: the appending effect is PRN's, whose operand byte is the one behind the instruction byte. -/
theorem onlyPrnEmits : Obligations.OnlyPrnEmits := by
  intro s t answer
  obtain ⟨-, ⟨k, rfl⟩ | ⟨-, i, decoded, effect⟩⟩ := step_eq_next answer
  · exact .inl rfl
  obtain same | ⟨r, rfl, appended⟩ := effect.out_cases
  · exact .inl same
  · exact .inr ⟨(decode_opcode decoded).symm, r, first_operand_of_decode decoded rfl, appended⟩

/-- An effect neither reads the output nor does more than append to it: it is the same effect over any other output. -/
theorem Effect.with_out {i : Instr} {s t : State} (effect : Effect i s t) :
    ∃ l, t.out = s.out ++ l ∧ ∀ o, Effect i { s with out := o } { t with out := o ++ l } := by
  obtain same | ⟨r, rfl, appended⟩ := effect.out_cases
  · refine ⟨[], by simp [same], fun o => ?_⟩
    rw [List.append_nil]
    cases i with
    | prn =>
      obtain ⟨r, -, -, rfl⟩ := effect
      simp at same
    | hlt =>
      obtain rfl := effect
      rfl
    | ldi | push | pop =>
      obtain ⟨r, named, advance, rfl⟩ := effect
      exact ⟨r, named, advance, rfl⟩
    | jmp =>
      obtain ⟨r, named, rfl⟩ := effect
      exact ⟨r, named, rfl⟩
    | jeq | jne =>
      obtain ⟨r, named, ⟨flag, rfl⟩ | ⟨flag, advance, rfl⟩⟩ := effect
      · exact ⟨r, named, .inl ⟨flag, rfl⟩⟩
      · exact ⟨r, named, .inr ⟨flag, advance, rfl⟩⟩
    | add | mul | cmp =>
      obtain ⟨ra, rb, namedA, namedB, advance, rfl⟩ := effect
      exact ⟨ra, rb, namedA, namedB, advance, rfl⟩
  · refine ⟨[s.reg r], appended, fun o => ?_⟩
    obtain ⟨q, named, advance, rfl⟩ := effect
    obtain rfl := Reg.code_inj named
    exact ⟨r, rfl, advance, rfl⟩

/-- `exec_invalidRegister` as an equation: the state that results is the raise, not only one that `FaultsWith` describes. -/
theorem exec_eq_raise_invalidRegister {i : Instr} {b : Byte} (s : State) (operand : b ∈ regOperands i)
    (bad : 8 ≤ b.toNat) : exec i s = .next (s.raise .invalidRegister i.opcode) := by
  obtain ⟨t, -, effect⟩ | ⟨raised, -⟩ | ⟨-, good, -⟩ := exec_spec i s
  · exact absurd bad (Nat.not_le.mpr (effect.regOperands_lt b operand))
  · exact raised
  · exact absurd bad (Nat.not_le.mpr (good b operand))

/-- `exec_outOfBounds` as an equation. -/
theorem exec_eq_raise_outOfBounds {i : Instr} {s : State} (good : ∀ b ∈ regOperands i, b.toNat < 8)
    (noEffect : ∀ t, ¬ Effect i s t) : exec i s = .next (s.raise .outOfBounds i.opcode) := by
  obtain ⟨t, -, effect⟩ | ⟨-, b, operand, bad⟩ | ⟨raised, -, -⟩ := exec_spec i s
  · exact absurd effect (noEffect t)
  · exact absurd bad (Nat.not_le.mpr (good b operand))
  · exact raised

/-- `exec` over another output answers the same next state with the same values appended. -/
theorem exec_with_out (i : Instr) (s : State) (o : List Byte) :
    ∃ t l, exec i s = .next t ∧ t.out = s.out ++ l ∧ exec i { s with out := o } = .next { t with out := o ++ l } := by
  by_cases effective : ∃ t, Effect i s t
  · obtain ⟨t, effect⟩ := effective
    obtain ⟨l, appended, other⟩ := effect.with_out
    exact ⟨t, l, exec_of_effect effect, appended, exec_of_effect (other o)⟩
  by_cases bad : ∃ b ∈ regOperands i, 8 ≤ b.toNat
  · obtain ⟨b, operand, bad⟩ := bad
    refine ⟨_, [], exec_eq_raise_invalidRegister s operand bad, (List.append_nil _).symm, ?_⟩
    rw [exec_eq_raise_invalidRegister _ operand bad, List.append_nil]
    rfl
  · have good : ∀ b ∈ regOperands i, b.toNat < 8 := by simpa using bad
    have noEffect : ∀ t, ¬ Effect i { s with out := o } t := fun t effect => by
      obtain ⟨l, -, other⟩ := effect.with_out
      exact effective ⟨_, other s.out⟩
    refine ⟨_, [], exec_eq_raise_outOfBounds good (not_exists.mp effective), (List.append_nil _).symm, ?_⟩
    rw [exec_eq_raise_outOfBounds good noEffect, List.append_nil]
    rfl

/-- A step over another output answers the same next state with the same values appended, or stops alike: each case of
`step_spec` is told by run state, pc and memory. -/
theorem step_with_out (s : State) (o : List Byte) :
    (∃ t l, step s = .next t ∧ t.out = s.out ++ l ∧ step { s with out := o } = .next { t with out := o ++ l }) ∨
      ∃ f, step s = .fault f ∧ step { s with out := o } = .fault f := by
  obtain ⟨faulted, stop⟩ | ⟨noFault, halted, stop⟩ | ⟨noFault, notHalted, top, raised⟩ |
    ⟨noFault, notHalted, inBounds, ⟨i, decoded, executed⟩ | ⟨k, error, raised⟩⟩ := step_spec s
  · have record : s.fault ≠ none := Option.isSome_iff_ne_none.mp faulted
    exact .inr ⟨_, stop, (terminalStatesStop { s with out := o }).left record⟩
  · exact .inr ⟨_, stop, (terminalStatesStop { s with out := o }).right noFault halted⟩
  · refine .inl ⟨_, [], raised, (List.append_nil _).symm, ?_⟩
    rw [step_eq_raise_of_prefetch_past_top (s := { s with out := o }) ⟨notHalted, noFault⟩ top, List.append_nil]
    rfl
  · rw [executed, step_eq_exec_of_decode (s := { s with out := o }) ⟨notHalted, noFault⟩ inBounds decoded]
    exact .inl (exec_with_out i s o)
  · refine .inl ⟨_, [], raised, (List.append_nil _).symm, ?_⟩
    rw [step_eq_raise_of_decode_error (s := { s with out := o }) ⟨notHalted, noFault⟩ inBounds error, List.append_nil]
    rfl

/-- Settles O38: `step_with_out`, by which of the two answers the step gives (R21). -/
theorem outputIsNeverReadBack : Obligations.OutputIsNeverReadBack := by
  intro s o
  obtain ⟨t, l, answer, appended, other⟩ | ⟨f, stop, other⟩ := step_with_out s o
  · refine ⟨fun u h => ?_, fun g h => by cases answer.symm.trans h⟩
    cases answer.symm.trans h
    exact ⟨l, appended, other⟩
  · refine ⟨fun u h => (by cases stop.symm.trans h), fun g h => ?_⟩
    cases stop.symm.trans h
    exact other

/-! ## HLT in a step (43_control_flow.md R90) -/

/-- Settles O31: neither a raise nor another effect sets `halted`, and where the byte is 0x01 the step is HLT's. -/
theorem onlyHltHalts : Obligations.OnlyHltHalts := by
  intro s t answer
  obtain ⟨running, outcome⟩ := step_eq_next answer
  constructor
  · intro halted
    obtain ⟨k, rfl⟩ | ⟨inBounds, i, decoded, effect⟩ := outcome
    · cases running.left.symm.trans halted
    · obtain rfl := eq_hlt_of_exec_sets_halted (exec_of_effect effect) running.left halted
      exact ⟨inBounds, (decode_opcode decoded).symm⟩
  · rintro ⟨inBounds, byte⟩
    have executed : step s = exec .hlt s := step_eq_exec_of_decode running inBounds (by rw [State.ir, byte]; rfl)
    cases executed.symm.trans answer
    rfl

/-! ## Registers (10_state.md R11, R13) -/

theorem eq_of_setReg_changes {s : State} {r q : Reg} {v : Byte} (changed : (s.setReg r v).reg q ≠ s.reg q) : q = r := by
  by_contra other
  simp [other] at changed

/-- An effect changes its named destination, R7 in PUSH and POP, or R6 in CMP. -/
theorem Effect.reg_cases {i : Instr} {s t : State} {q : Reg} (effect : Effect i s t) (changed : t.reg q ≠ s.reg q) :
    (i.opcode ∈ [0x82, 0x46, 0xA0, 0xA2] ∧ i.operands.head? = some q.code) ∨
      (i.opcode ∈ [0x45, 0x46] ∧ q = .r7) ∨ (i.opcode = 0xA7 ∧ q = .r6) := by
  cases i with
  | ldi =>
    obtain ⟨r, rfl, -, rfl⟩ := effect
    obtain rfl := eq_of_setReg_changes changed
    exact .inl ⟨by simp [Instr.opcode], rfl⟩
  | add | mul =>
    obtain ⟨ra, rb, rfl, -, -, rfl⟩ := effect
    obtain rfl := eq_of_setReg_changes changed
    exact .inl ⟨by simp [Instr.opcode], rfl⟩
  | cmp =>
    obtain ⟨ra, rb, -, -, -, rfl⟩ := effect
    exact .inr (.inr ⟨rfl, eq_of_setReg_changes changed⟩)
  | push =>
    obtain ⟨r, -, -, rfl⟩ := effect
    exact .inr (.inl ⟨by simp [Instr.opcode], eq_of_setReg_changes changed⟩)
  | pop =>
    obtain ⟨r, rfl, -, rfl⟩ := effect
    by_cases sp : q = .r7
    · exact .inr (.inl ⟨by simp [Instr.opcode], sp⟩)
    · have loaded : (s.setReg r (Memory.read s.mem (s.reg .sp).toNat)).reg q ≠ s.reg q := by simpa [sp] using changed
      obtain rfl := eq_of_setReg_changes loaded
      exact .inl ⟨by simp [Instr.opcode], rfl⟩
  | prn =>
    obtain ⟨r, -, -, rfl⟩ := effect
    exact absurd rfl changed
  | hlt =>
    obtain rfl := effect
    exact absurd rfl changed
  | jmp =>
    obtain ⟨r, -, rfl⟩ := effect
    exact absurd rfl changed
  | jeq | jne =>
    obtain ⟨r, -, ⟨-, rfl⟩ | ⟨-, -, rfl⟩⟩ := effect <;> exact absurd rfl changed

/-- Settles O34: `Effect.reg_cases`, with opcode and first operand read from the bytes the instruction was decoded from. -/
theorem onlyNamedRegistersChange : Obligations.OnlyNamedRegistersChange := by
  intro s t q answer changed
  obtain ⟨-, ⟨k, rfl⟩ | ⟨-, i, decoded, effect⟩⟩ := step_eq_next answer
  · exact absurd rfl changed
  have byte : i.opcode = Memory.read s.mem s.pc.toNat := decode_opcode decoded
  rw [← byte]
  exact (effect.reg_cases changed).imp_left fun ⟨opcode, destination⟩ =>
    ⟨opcode, first_operand_of_decode decoded destination⟩

/-! ## The program counter (10_state.md R16) -/

theorem State.flagsEqual_iff (s : State) : s.flagsEqual = true ↔ s.reg .r6 = 0x01 := beq_iff_eq

theorem State.flagsEqual_eq_false_iff (s : State) : s.flagsEqual = false ↔ s.reg .r6 ≠ 0x01 := by
  rw [ne_eq, ← s.flagsEqual_iff, Bool.not_eq_true]

theorem Effect.pc_of_three_bytes {i : Instr} {s t : State} (effect : Effect i s t)
    (opcode : i.opcode ∈ [0x82, 0xA0, 0xA2, 0xA7]) : t.pc.toNat = s.pc.toNat + 3 := by
  cases i with
  | ldi =>
    obtain ⟨r, -, advance, rfl⟩ := effect
    exact toNat_ofNat_of_le_pcMax advance
  | add | mul | cmp =>
    obtain ⟨ra, rb, -, -, advance, rfl⟩ := effect
    exact toNat_ofNat_of_le_pcMax advance
  | prn | hlt | push | pop | jmp | jeq | jne => simp [Instr.opcode] at opcode

theorem Effect.pc_of_two_bytes {i : Instr} {s t : State} (effect : Effect i s t)
    (opcode : i.opcode ∈ [0x47, 0x45, 0x46]) : t.pc.toNat = s.pc.toNat + 2 := by
  cases i with
  | prn | push | pop =>
    obtain ⟨r, -, advance, rfl⟩ := effect
    exact toNat_ofNat_of_le_pcMax advance
  | ldi | hlt | jmp | jeq | jne | add | mul | cmp => simp [Instr.opcode] at opcode

theorem Effect.pc_of_hlt {i : Instr} {s t : State} (effect : Effect i s t) (opcode : i.opcode = 0x01) : t.pc = s.pc := by
  cases i with
  | hlt =>
    obtain rfl := effect
    rfl
  | ldi | prn | push | pop | jmp | jeq | jne | add | mul | cmp => simp [Instr.opcode] at opcode

/-- A jump goes to its register when taken, and advances by 2 when not; R6 decides for JEQ and JNE (D5). -/
theorem Effect.pc_of_jump {i : Instr} {s t : State} (effect : Effect i s t) (opcode : i.opcode ∈ [0x54, 0x55, 0x56]) :
    ∃ r : Reg, i.operands.head? = some r.code ∧
      (i.opcode = 0x54 ∨ (i.opcode = 0x55 ∧ s.reg .r6 = 0x01) ∨ (i.opcode = 0x56 ∧ s.reg .r6 ≠ 0x01) → t.pc = s.reg r) ∧
      ((i.opcode = 0x55 ∧ s.reg .r6 ≠ 0x01) ∨ (i.opcode = 0x56 ∧ s.reg .r6 = 0x01) → t.pc.toNat = s.pc.toNat + 2) := by
  cases i with
  | jmp =>
    obtain ⟨r, rfl, rfl⟩ := effect
    exact ⟨r, rfl, fun _ => rfl, by simp [Instr.opcode]⟩
  | jeq =>
    obtain ⟨r, rfl, ⟨equal, rfl⟩ | ⟨notEqual, advance, rfl⟩⟩ := effect
    · rw [State.flagsEqual_iff] at equal
      exact ⟨r, rfl, fun _ => rfl, by simp [Instr.opcode, equal]⟩
    · rw [State.flagsEqual_eq_false_iff] at notEqual
      exact ⟨r, rfl, fun taken => absurd (by simpa [Instr.opcode] using taken) notEqual, fun _ => toNat_ofNat_of_le_pcMax advance⟩
  | jne =>
    obtain ⟨r, rfl, ⟨notEqual, rfl⟩ | ⟨equal, advance, rfl⟩⟩ := effect
    · rw [State.flagsEqual_eq_false_iff] at notEqual
      exact ⟨r, rfl, fun _ => rfl, fun untaken => absurd (by simpa [Instr.opcode] using untaken) notEqual⟩
    · rw [State.flagsEqual_iff] at equal
      exact ⟨r, rfl, by simp [Instr.opcode, equal], fun _ => toNat_ofNat_of_le_pcMax advance⟩
  | ldi | prn | hlt | push | pop | add | mul | cmp => simp [Instr.opcode] at opcode

/-- Settles O30: a raise leaves pc; without one the row is the decoded instruction's effect on pc (R16, D3). -/
theorem programCounterTable : Obligations.ProgramCounterTable := by
  intro s t answer
  obtain ⟨⟨-, noFault⟩, ⟨k, rfl⟩ | ⟨-, i, decoded, effect⟩⟩ := step_eq_next answer
  · exact ⟨fun _ => rfl, nofun, nofun, nofun, nofun⟩
  have byte : i.opcode = Memory.read s.mem s.pc.toNat := decode_opcode decoded
  rw [← byte]
  refine ⟨fun faulted => absurd (effect.fault_eq.trans noFault) faulted, fun _ => effect.pc_of_three_bytes,
    fun _ => effect.pc_of_two_bytes, fun _ => effect.pc_of_hlt, fun _ opcode => ?_⟩
  obtain ⟨r, operand, taken, untaken⟩ := effect.pc_of_jump opcode
  exact ⟨r, first_operand_of_decode decoded operand, taken, untaken⟩

/-! ## The first error (60_exceptions.md R107, R112) -/

/-- The table's error for bytes that decode, with pc at most 253: a bad operand, then an advance past 255. -/
theorem firstError_of_decode {pc : Nat} {ir opa opb : Byte} {i : Instr} (inBounds : pc ≤ 253)
    (decoded : decode ir opa opb = .ok i) :
    firstError pc ir opa opb =
      if ∃ b ∈ regOperands i, 8 ≤ b.toNat then some .invalidRegister
      else if 255 < pc + i.length then some .outOfBounds else none := by
  have noPrefetchError : ¬ 254 ≤ pc := by omega
  have noOneByteError : pc < 255 := by omega
  have noTwoByteError : ¬ 255 < pc + 2 := by omega
  have threeByteError : 255 < pc + 3 ↔ pc = 253 := by omega
  have bytes := (decode_eq_ok_iff ir opa opb i).mp decoded
  cases i with
  | hlt =>
    cases bytes
    simp [firstError, noPrefetchError, noOneByteError, Instr.opcode, regOperands, Instr.length, Instr.operands]
  | prn | push | pop | jmp | jeq | jne =>
    cases bytes
    simp [firstError, noPrefetchError, noTwoByteError, Instr.opcode, regOperands, Instr.length, Instr.operands]
  | ldi | add | mul | cmp =>
    cases bytes
    simp [firstError, noPrefetchError, threeByteError, Instr.opcode, regOperands, Instr.length, Instr.operands]

theorem not_mem_opcodes_of_decode_error {ir opa opb : Byte} {k : ErrorKind} (error : decode ir opa opb = .error k) :
    ir ∉ fixedDispatchOpcodes ∧ ir ∉ aluOpcodes := by
  rw [decode_eq_error_iff] at error
  constructor
  · intro fixed
    obtain ⟨-, known, supported⟩ := classify_of_mem_fixedDispatchOpcodes ir fixed
    simp [known, supported] at error
  · intro alu
    obtain ⟨-, known, supported⟩ := classify_of_mem_aluOpcodes ir alu
    simp [known, supported] at error

/-- The table's error for a byte that is no opcode, with pc at most 253: bit 5 tells which. -/
theorem firstError_of_not_mem {pc : Nat} {ir : Byte} (opa opb : Byte) (inBounds : pc ≤ 253)
    (notFixed : ir ∉ fixedDispatchOpcodes) (notAlu : ir ∉ aluOpcodes) :
    firstError pc ir opa opb = some (if isAlu ir then .unsupportedAluOperation else .unknownInstruction) := by
  have noPrefetchError : ¬ 254 ≤ pc := by omega
  simp only [fixedDispatchOpcodes, aluOpcodes, List.mem_cons, List.not_mem_nil, or_false, not_or] at notFixed notAlu
  simp only [firstError, noPrefetchError, notFixed, notAlu, or_false, if_false, isAlu]
  exact (apply_ite some _ _ _).symm

theorem firstError_of_decode_error {pc : Nat} {ir opa opb : Byte} {k : ErrorKind} (inBounds : pc ≤ 253)
    (error : decode ir opa opb = .error k) : firstError pc ir opa opb = some k := by
  obtain ⟨notFixed, notAlu⟩ := not_mem_opcodes_of_decode_error error
  rw [firstError_of_not_mem opa opb inBounds notFixed notAlu]
  rw [decode_eq_error_iff, classify_of_not_mem notFixed notAlu] at error
  cases bit : isAlu ir with
  | true | false => simpa [bit, eq_comm] using error

/-- With pc at most 253, an effect means that the advance by the instruction's length fits: a jump's own length always does. -/
theorem Effect.advance_fits {i : Instr} {s t : State} (effect : Effect i s t) (inBounds : s.pc.toNat ≤ 253) :
    s.pc.toNat + i.length ≤ 255 := by
  cases i with
  | ldi =>
    obtain ⟨r, -, advance, -⟩ := effect
    exact advance
  | add | mul | cmp =>
    obtain ⟨ra, rb, -, -, advance, -⟩ := effect
    exact advance
  | hlt | prn | push | pop | jmp | jeq | jne =>
    have short : s.pc.toNat + 2 ≤ 255 := by omega
    exact le_trans (Nat.add_le_add_left (by simp [Instr.length, Instr.operands]) _) short

/-- Settles O29: past 253 the table's first row is the prefetch bound; below, its rows are the decoder's errors and then
those of `exec_spec`, in that order (R107, R112, D9). -/
theorem firstErrorIsReported : Obligations.FirstErrorIsReported := by
  intro s running
  by_cases inBounds : s.pc.toNat ≤ 253
  case neg =>
    have top : 254 ≤ s.pc.toNat := by omega
    exact ⟨_, step_eq_raise_of_prefetch_past_top running top, (if_pos top).symm⟩
  obtain ⟨i, decoded, executed⟩ | ⟨k, error, raised⟩ := step_of_prefetch_in_bounds running inBounds
  case inr => exact ⟨_, raised, (firstError_of_decode_error inBounds error).symm⟩
  have table := firstError_of_decode inBounds decoded
  rw [State.ir] at table
  rw [executed, table]
  obtain ⟨t, next, effect⟩ | ⟨raised, bad⟩ | ⟨raised, good, past⟩ := exec_spec i s
  · have fits := effect.advance_fits inBounds
    have good := effect.regOperands_lt
    refine ⟨t, next, ?_⟩
    rw [if_neg (by simpa using good), if_neg (by omega), effect.fault_eq, running.right]
    rfl
  · exact ⟨_, raised, (if_pos bad).symm⟩
  · refine ⟨_, raised, ?_⟩
    rw [if_neg (by simpa using good), if_pos past]
    rfl

end Sys2Proof.Machine

namespace Sys2Proof.Machine

/-! ## PUSH and POP (42_stack.md) -/

/-- Settles O4: the store is PUSH's `Effect`, whose address and value are read after the decrement (R85, D4, D6). -/
theorem pushStoresBelowStackPointer : Obligations.PushStoresBelowStackPointer := by
  intro s
  refine ⟨fun reg opb => ⟨rfl, rfl⟩, ?store, fun b bad => exec_invalidRegister s (by simp [regOperands]) bad⟩
  case store =>
    intro r below
    have advance : s.pc.toNat + 2 ≤ 255 := by omega
    have address : (s.reg .sp + 255).toNat = ((s.reg .r7).toNat + 255) % 256 := BitVec.toNat_add _ _
    refine ⟨_, exec_of_effect ⟨r, rfl, advance, rfl⟩, address, ?others, ?stored, ?elsewhere,
      toNat_ofNat_of_le_pcMax advance, ⟨rfl, rfl⟩, rfl⟩
    case others =>
      intro q other
      exact (s.decSp_reg q).trans (if_neg other)
    case stored =>
      rw [← address]
      exact (Memory.read_write _ _ _ _).trans (if_pos rfl)
    case elsewhere =>
      intro a other
      rw [← address] at other
      exact (Memory.read_write _ _ _ _).trans (if_neg other)

/-- Settles O5: the load is POP's `Effect`, which increments R7 as it is after the load (R86, D4, D6). -/
theorem popLoadsFromStackPointer : Obligations.PopLoadsFromStackPointer := by
  intro s
  refine ⟨fun reg opb => ⟨rfl, rfl⟩, ?load, fun b bad => exec_invalidRegister s (by simp [regOperands]) bad⟩
  case load =>
    intro r below
    have advance : s.pc.toNat + 2 ≤ 255 := by omega
    refine ⟨_, exec_of_effect ⟨r, rfl, advance, rfl⟩, ?notSp, ?sp, ?others, fun _ => rfl,
      toNat_ofNat_of_le_pcMax advance, ⟨rfl, rfl⟩, rfl⟩
    case notSp =>
      intro notSp
      simp [notSp, Ne.symm notSp]
    case sp =>
      rintro rfl
      simp
    case others =>
      intro q other notSp
      simp [other, notSp]

/-! ## JEQ and JNE (43_control_flow.md) -/

/-- Settles O7: the two ends are those of JEQ's `Effect`, and the operand is checked before R6 is tested (R92, D5, D7). -/
theorem jeqJumpsOnEqual : Obligations.JeqJumpsOnEqual := by
  intro s
  refine ⟨fun reg opb => ⟨rfl, rfl⟩, ?taken, ?untaken, fun b bad => exec_invalidRegister s (by simp [regOperands]) bad⟩
  case taken =>
    intro r equal
    exact ⟨_, exec_of_effect ⟨r, rfl, .inl ⟨s.flagsEqual_iff.mpr equal, rfl⟩⟩, rfl, fun _ => rfl, fun _ => rfl,
      ⟨rfl, rfl⟩, rfl⟩
  case untaken =>
    intro r notEqual below
    have advance : s.pc.toNat + 2 ≤ 255 := by omega
    exact ⟨_, exec_of_effect ⟨r, rfl, .inr ⟨s.flagsEqual_eq_false_iff.mpr notEqual, advance, rfl⟩⟩,
      toNat_ofNat_of_le_pcMax advance, fun _ => rfl, fun _ => rfl, ⟨rfl, rfl⟩, rfl⟩

/-- Settles O8: the two ends are those of JNE's `Effect`, and the operand is checked before R6 is tested (R93, D5, D7). -/
theorem jneJumpsOnNotEqual : Obligations.JneJumpsOnNotEqual := by
  intro s
  refine ⟨fun reg opb => ⟨rfl, rfl⟩, ?taken, ?untaken, fun b bad => exec_invalidRegister s (by simp [regOperands]) bad⟩
  case taken =>
    intro r notEqual
    exact ⟨_, exec_of_effect ⟨r, rfl, .inl ⟨s.flagsEqual_eq_false_iff.mpr notEqual, rfl⟩⟩, rfl, fun _ => rfl,
      fun _ => rfl, ⟨rfl, rfl⟩, rfl⟩
  case untaken =>
    intro r equal below
    have advance : s.pc.toNat + 2 ≤ 255 := by omega
    exact ⟨_, exec_of_effect ⟨r, rfl, .inr ⟨s.flagsEqual_iff.mpr equal, advance, rfl⟩⟩,
      toNat_ofNat_of_le_pcMax advance, fun _ => rfl, fun _ => rfl, ⟨rfl, rfl⟩, rfl⟩

/-! ## CMP and the ALU (44_alu.md) -/

theorem compareFlags_of_eq {a b : Byte} (h : a.toNat = b.toNat) : compareFlags a b = flEqual := if_pos h

theorem compareFlags_of_lt {a b : Byte} (h : a.toNat < b.toNat) : compareFlags a b = flLess :=
  (if_neg h.ne).trans (if_pos h)

theorem compareFlags_of_gt {a b : Byte} (h : b.toNat < a.toNat) : compareFlags a b = flGreater :=
  (if_neg h.ne').trans (if_neg h.not_gt)

/-- Settles O11: the pattern is CMP's `Effect`, which writes R6 alone; the errors are those of an operand pair (R97, D16). -/
theorem cmpStoresOnePattern : Obligations.CmpStoresOnePattern := by
  intro s
  refine ⟨fun a b => ⟨rfl, rfl⟩, ?pattern, fun a b bad => exec_invalidRegister_of_operand_pair s rfl bad,
    fun ra rb above => exec_outOfBounds_of_operand_pair rfl above⟩
  case pattern =>
    intro ra rb below
    have advance : s.pc.toNat + 3 ≤ 255 := by omega
    refine ⟨_, exec_of_effect ⟨ra, rb, rfl, rfl, advance, rfl⟩, compareFlags_of_eq, compareFlags_of_lt,
      compareFlags_of_gt, ?others, toNat_ofNat_of_le_pcMax advance, fun _ => rfl, ⟨rfl, rfl⟩, rfl⟩
    case others =>
      intro q other
      exact (s.setReg_reg _ _ q).trans (if_neg other)

/-- The three patterns tell the three orders apart (10_state.md R17). -/
theorem compareFlags_iff (a b : Byte) :
    (compareFlags a b = 0x01 ↔ a = b) ∧ (compareFlags a b = 0x04 ↔ a.toNat < b.toNat) ∧
      (compareFlags a b = 0x02 ↔ b.toNat < a.toNat) := by
  obtain less | equal | greater := lt_trichotomy a.toNat b.toNat
  · have different : a ≠ b := fun same => less.ne (congrArg _ same)
    simp [compareFlags_of_lt less, different, less, less.not_gt]
  · obtain rfl := BitVec.eq_of_toNat_eq equal
    simp [compareFlags_of_eq]
  · have different : a ≠ b := fun same => greater.ne' (congrArg _ same)
    simp [compareFlags_of_gt greater, different, greater, greater.not_gt]

/-- Settles O15: one case of `alu` for each selector (R99, D12). -/
theorem aluComputesThreeOperations : Obligations.AluComputesThreeOperations := by
  intro a b
  refine ⟨⟨_, rfl, BitVec.toNat_ofNat _ _⟩, ⟨_, rfl, BitVec.toNat_ofNat _ _⟩, ⟨_, rfl, compareFlags_iff a b⟩, ?others⟩
  case others =>
    intro sel notAdd notMul notCmp
    exact (if_neg notAdd).trans ((if_neg notMul).trans (if_neg notCmp))

/-! ## Two instructions in a row -/

/-- Settles O39: what PUSH stores at the decremented R7 is what POP loads from there, and the two moves of R7 cancel. -/
theorem pushThenPopRestores : Obligations.PushThenPopRestores := by
  intro s r q rNotSp qNotSp below
  obtain ⟨t, pushed, sp, others, stored, -, pc, -, -⟩ := (pushStoresBelowStackPointer s).right.left r (by omega)
  obtain ⟨u, popped, loadNotSp, -, kept, -, -, -, -⟩ := (popLoadsFromStackPointer t).right.left q (by omega)
  obtain ⟨loaded, sp'⟩ := loadNotSp qNotSp
  refine ⟨t, u, pushed, popped, ?value, fun p other => ?_⟩
  case value => rw [loaded, sp, stored, others r rNotSp]
  by_cases isSp : p = .r7
  · subst isSp
    have := (s.reg .r7).isLt
    exact BitVec.eq_of_toNat_eq (by omega)
  · rw [kept p other isSp, others p isSp]

/-- Settles O40: CMP leaves 0x01 in R6 exactly for equal registers, and that is the byte JEQ and JNE test. -/
theorem compareThenJump : Obligations.CompareThenJump := by
  intro s ra rb r below
  obtain ⟨t, compared, equalFlag, lessFlag, greaterFlag, -, pc, -⟩ := (cmpStoresOnePattern s).right.left ra rb (by omega)
  obtain ⟨-, jeqTaken, jeqUntaken, -⟩ := jeqJumpsOnEqual t
  obtain ⟨-, jneTaken, jneUntaken, -⟩ := jneJumpsOnNotEqual t
  by_cases equal : s.reg ra = s.reg rb
  · have flag := equalFlag (congrArg _ equal)
    obtain ⟨u, jeq, target, -⟩ := jeqTaken r flag
    obtain ⟨v, jne, next, -⟩ := jneUntaken r flag (by omega)
    exact ⟨t, u, v, compared, jeq, jne, fun _ => ⟨target, by omega⟩, fun notEqual => absurd equal notEqual⟩
  · have flag : t.reg .r6 ≠ 0x01 := by
      obtain less | greater := Nat.lt_or_gt_of_ne (mt BitVec.eq_of_toNat_eq equal)
      · rw [lessFlag less]
        decide
      · rw [greaterFlag greater]
        decide
    obtain ⟨u, jeq, next, -⟩ := jeqUntaken r flag (by omega)
    obtain ⟨v, jne, target, -⟩ := jneTaken r flag
    exact ⟨t, u, v, compared, jeq, jne, fun h => absurd h equal, fun _ => ⟨by omega, target⟩⟩

/-- Settles O41: PUSH moves pc to the address it stored to, and the fetch reads memory there (20_memory.md R42). -/
theorem storeIsSeenByNextFetch : Obligations.StoreIsSeenByNextFetch := by
  intro s r below storesAtNext
  obtain ⟨t, pushed, -, -, stored, -, pc, -, -⟩ := (pushStoresBelowStackPointer s).right.left r (by omega)
  have byte : t.ir = t.reg r := by rw [State.ir, pc, storesAtNext, stored]
  obtain ⟨-, fetched⟩ | ⟨top, -⟩ := fetch_spec t
  · exact ⟨t, _, _, pushed, byte ▸ fetched⟩
  · omega

/-! ## A jump to itself (43_control_flow.md R91) -/

theorem State.setPc_self (s : State) : s.setPc s.pc = s := rfl

/-- On any machine, a state that steps to itself is where any number of steps ends. -/
theorem run_eq_of_step_eq_self {M : Host.Core} {s : M.State} (fixed : M.step s = .next s) (n : Nat) :
    M.run n s = .next s := by
  induction n with
  | zero => rfl
  | succ n ih =>
    rw [Host.Core.run, fixed]
    exact ih

/-- Settles O42: the JMP sets pc to what it is, so the state steps to itself (95_test_vectors.md J6). -/
theorem jumpToItselfNeverEnds : Obligations.JumpToItselfNeverEnds := by
  intro s r n running inBounds opcode operand target
  have executed : step s = exec (.jmp r.code) s :=
    step_eq_exec_of_decode running inBounds (by rw [State.ir, opcode, operand]; rfl)
  have jumped : exec (.jmp r.code) s = .next s :=
    exec_of_effect ⟨r, rfl, by rw [target, State.setPc_self]⟩
  exact run_eq_of_step_eq_self (M := Sys2Proof.core) (executed.trans jumped) n

/-! ## Memory (10_state.md R19, 20_memory.md R32) -/

/-- Settles O13: below 256 the write replaces one byte by `v mod 256`; from 256 on `memWrite_spec` gives the error (R32). -/
theorem memWriteChangesOneByte : Obligations.MemWriteChangesOneByte := by
  intro s a v
  obtain ⟨below, written⟩ | ⟨above, outOfBounds⟩ := s.memWrite_spec a v
  · refine ⟨fun _ => ⟨_, written, ?_, fun b other => ?_, fun _ => rfl, rfl, ⟨rfl, rfl⟩, rfl⟩, fun above => by omega⟩
    · simp [Memory.read_write]
    · exact (Memory.read_write _ _ _ _).trans (if_neg other)
  · exact ⟨fun below => by omega, fun _ => outOfBounds⟩

theorem Memory.wfFrom_cons_iff (lo a : Nat) (v : Byte) (m : Memory) :
    Memory.wfFrom lo ((a, v) :: m) = true ↔
      lo ≤ a ∧ a < 256 ∧ v ≠ Memory.unlisted ∧ Memory.wfFrom (a + 1) m = true := by
  simp [Memory.wfFrom, and_assoc]

/-- Below the address it starts from, a canonical memory lists nothing. -/
theorem Memory.read_of_lt_wfFrom {m : Memory} {lo b : Nat} (wf : Memory.wfFrom lo m = true) (below : b < lo) :
    Memory.read m b = Memory.unlisted := by
  induction m generalizing lo with
  | nil => rfl
  | cons c m ih =>
    obtain ⟨a, v⟩ := c
    obtain ⟨lower, -, -, tail⟩ := (Memory.wfFrom_cons_iff lo a v m).mp wf
    rw [Memory.read, if_neg (by omega)]
    exact ih tail (by omega)

/-- The first cell of a canonical memory is the lowest address that reads otherwise than unlisted. -/
theorem Memory.le_of_read_head {lo a b : Nat} {v : Byte} {m : Memory} (wf : Memory.wfFrom lo ((a, v) :: m) = true)
    (listed : Memory.read ((a, v) :: m) b ≠ Memory.unlisted) : a ≤ b := by
  by_contra below
  obtain ⟨-, bound, value, tail⟩ := (Memory.wfFrom_cons_iff lo a v m).mp wf
  exact listed (Memory.read_of_lt_wfFrom ((Memory.wfFrom_cons_iff a a v m).mpr ⟨le_rfl, bound, value, tail⟩) (by omega))

theorem Memory.read_head (a : Nat) (v : Byte) (m : Memory) : Memory.read ((a, v) :: m) a = v := if_pos rfl

/-- Canonical memories that read alike below 256 are equal: their first cells are the lowest listed address, and their
tails read alike again. -/
theorem Memory.eq_of_reads_eq {m n : Memory} {lo : Nat} (wfM : Memory.wfFrom lo m = true) (wfN : Memory.wfFrom lo n = true)
    (reads : ∀ a : Nat, a < 256 → Memory.read m a = Memory.read n a) : m = n := by
  induction m generalizing lo n with
  | nil =>
    cases n with
    | nil => rfl
    | cons d n =>
      obtain ⟨b, w⟩ := d
      obtain ⟨-, boundB, valueW, -⟩ := (Memory.wfFrom_cons_iff lo b w n).mp wfN
      have listed := reads b boundB
      rw [Memory.read_head] at listed
      exact absurd listed.symm valueW
  | cons c m ih =>
    obtain ⟨a, v⟩ := c
    obtain ⟨-, boundA, valueV, tailM⟩ := (Memory.wfFrom_cons_iff lo a v m).mp wfM
    have listedA := reads a boundA
    rw [Memory.read_head] at listedA
    cases n with
    | nil => exact absurd listedA valueV
    | cons d n =>
      obtain ⟨b, w⟩ := d
      obtain ⟨-, boundB, valueW, tailN⟩ := (Memory.wfFrom_cons_iff lo b w n).mp wfN
      have listedB := reads b boundB
      rw [Memory.read_head] at listedB
      obtain rfl : a = b :=
        le_antisymm (Memory.le_of_read_head wfM (listedB ▸ valueW)) (Memory.le_of_read_head wfN (listedA ▸ valueV))
      obtain rfl : v = w := listedA.trans (Memory.read_head a w n)
      refine congrArg _ (ih tailM tailN fun x bound => ?_)
      by_cases low : x ≤ a
      · rw [Memory.read_of_lt_wfFrom tailM (by omega), Memory.read_of_lt_wfFrom tailN (by omega)]
      · simpa [Memory.read, show a ≠ x by omega] using reads x bound

/-- Settles O14: `Memory.eq_of_reads_eq` from address 0. -/
theorem equalReadsAreEqualMemories : Obligations.EqualReadsAreEqualMemories :=
  fun _ _ wfM wfN reads => Memory.eq_of_reads_eq wfM wfN reads

/-! ## Reset and launch (70_reset_and_hazards.md R120, R122) -/

/-- Settles O37: reset memory lists no cell, and no record is there to name a byte. -/
theorem resetHasInvariant : Obligations.ResetHasInvariant where
  memory_canonical := State.reset_mem_wf
  one_terminal_state _ := rfl
  record_names_pc := nofun

/-- Settles O43: each field has its reset value, register by register (10_state.md R10, R14). -/
theorem resetState : Obligations.ResetState := by
  refine ⟨fun r notSp => ?_, rfl, rfl, fun _ => rfl, rfl, rfl, rfl⟩
  cases r with
  | r0 | r1 | r2 | r3 | r4 | r5 | r6 => rfl
  | r7 => exact absurd rfl notSp

/-- Bytes placed within memory are read back from where they were placed, and every other address as before. -/
theorem State.read_placeBytes (bytes : List Byte) (s : State) (a b : Nat) (fits : a + bytes.length ≤ 256) :
    Memory.read (s.placeBytes a bytes).mem b =
      if a ≤ b then bytes[b - a]?.getD (Memory.read s.mem b) else Memory.read s.mem b := by
  induction bytes generalizing s a with
  | nil => simp [State.placeBytes]
  | cons v bytes ih =>
    rw [List.length_cons] at fits
    rw [State.placeBytes, if_pos (show a < 256 by omega), ih _ _ (by omega), Memory.read_write]
    obtain below | rfl | above := lt_trichotomy b a
    · rw [if_neg (by omega), if_neg (by omega), if_neg (by omega)]
    · simp
    · have offset : b - a = b - (a + 1) + 1 := by omega
      rw [if_pos (show a + 1 ≤ b from above), if_pos above.le, if_neg above.ne', offset, List.getElem?_cons_succ]

/-- Settles O44: placing the image from address 0 over the reset state changes memory alone (R122, D1, D13). -/
theorem launchPlacesImage : Obligations.LaunchPlacesImage := by
  intro img
  refine ⟨fun fits => ⟨_, if_pos fits, ?_⟩, fun long => if_neg (Nat.not_le.mpr long)⟩
  have reads (k : Nat) : Memory.read (State.reset.placeBytes 0 img).mem k = img[k]?.getD 0x00 := by
    rw [State.read_placeBytes img State.reset 0 k (by omega), if_pos k.zero_le]
    rfl
  obtain ⟨regs, pc, halted, fault, out⟩ := State.placeBytes_fields img State.reset 0
  refine ⟨fun k h => ?_, fun k h => ?_, fun r => congrArg (RegFile.read · r) regs, pc, ⟨halted, fault⟩, out, ?_⟩
  · simp [reads, h]
  · simp [reads, h]
  · exact ⟨State.placeBytes_wf img _ 0 State.reset_mem_wf, fun _ => fault, fun f record => by cases fault.symm.trans record⟩

/-! ## The host's forced halt and the trace hook (R126, 60_exceptions.md R116) -/

theorem State.runState_eq_running_iff (s : State) : s.runState = .running ↔ s.Running := by
  cases fault : s.fault with
  | some f => simp [State.runState, State.Running, fault]
  | none => simp [State.runState, State.Running, fault]

/-- Settles O45: the forced halt is `State.halt` in Running and nothing otherwise (R126, D19). -/
theorem forcedHaltSetsHaltedOnly : Obligations.ForcedHaltSetsHaltedOnly := by
  intro s
  refine ⟨fun running => ?_, fun notRunning => if_neg (mt s.runState_eq_running_iff.mp notRunning)⟩
  exact ⟨s.halt, if_pos (s.runState_eq_running_iff.mpr running), ⟨rfl, running.right⟩, fun _ => rfl, rfl,
    fun _ => rfl, rfl, step_ne_next_of_halted s.halt_halted⟩

/-- Settles O46: the hook shows the prefetched bytes where `fetch_spec` gives them (R116, D21). -/
theorem traceShowsStateBeforeExecution : Obligations.TraceShowsStateBeforeExecution := by
  intro s
  by_cases running : s.Running
  case neg =>
    have nothing : s.trace = none := if_neg (mt s.runState_eq_running_iff.mp running)
    exact ⟨fun h => absurd h running, fun _ => nothing, fun _ => nothing⟩
  have enabled := s.runState_eq_running_iff.mpr running
  obtain ⟨inBounds, fetched⟩ | ⟨top, fetched⟩ := fetch_spec s
  · refine ⟨fun _ _ => ?_, fun top => by omega, fun h => absurd running h⟩
    simp only [State.trace, enabled, fetched, if_true, State.ir]
  · refine ⟨fun _ inBounds => by omega, fun _ => ?_, fun h => absurd running h⟩
    simp only [State.trace, enabled, fetched, if_true]

end Sys2Proof.Machine
